-- ==== Sys2Proof/Word.lean ====
section
/-! DEFINITION. The plain types of the block: bytes, codes, the two modes of the expander and the run status. -/

namespace Sys2Proof

/-- One 8-bit byte of a space (20_memory R30). -/
abbrev Byte := BitVec 8

/-- A character code on the 8-bit code bus (00_scope R5 row CODE_W, R8). -/
abbrev Code := BitVec 8

/-- The latch ACT as the enumeration the document asks for (10_state R14, 60_exceptions R157):
`dormant` is ACT = 0 (State A), `active` is ACT = 1 (State B). -/
inductive Mode where
  | dormant
  | active
deriving DecidableEq, Repr

/-- The run status ST (10_state R18). -/
inductive RunStatus where
  | idle
  | run
  | done
deriving DecidableEq, Repr

end Sys2Proof
end

