-- ==== Sys2Proof/Syntax.lean ====
section
/-! DEFINITION. The operations of the block, one constructor per row of spec/opcode_table.json (30_encoding R65). -/

namespace Sys2Proof

/-- The 22 operations. An unpacker operation carries the two fields of its input byte (30_encoding R51): the payload
P of 7 - k bits and the carry-out C of k + 1 bits. `aPass` and `bLit` carry the code; the other expander operations
have a fixed code and no operand. -/
inductive Instr where
  | unp0 (p : BitVec 7) (c : BitVec 1)
  | unp1 (p : BitVec 6) (c : BitVec 2)
  | unp2 (p : BitVec 5) (c : BitVec 3)
  | unp3 (p : BitVec 4) (c : BitVec 4)
  | unp4 (p : BitVec 3) (c : BitVec 5)
  | unp5 (p : BitVec 2) (c : BitVec 6)
  | unp6 (p : BitVec 1) (c : BitVec 7)
  | aPass (code : Code)
  | bPfxGt
  | bPfxBar
  | bPfxDlr
  | bPfxAt
  | bPairA
  | bPairLowerA
  | bPairB
  | bPairC
  | bPairF
  | bPairI
  | bPairP
  | bPairS
  | bPairU
  | bLit (code : Code)
deriving DecidableEq, Repr

end Sys2Proof
end

