-- ==== Sys2Proof/Decode.lean ====
section
/-! DEFINITION. The decoder of both layers (30_encoding R50 to R58), total on any byte, and the encoder after it.
A byte holds no opcode: the operation is selected by the layer it arrives on and by the state (R50), so the decoder
takes that state as a `Context`. No encoding is illegal (R61), so nothing is rejected but a table word of more than
eight bits. -/

namespace Sys2Proof

/-- What selects an operation beside the byte: on the packed layer the phase BIT, on the token layer ACT and PREV
(R50). -/
inductive Context where
  | packed (bit : Fin 7)
  | token (act : Mode) (prev : Code)
deriving DecidableEq, Repr

/-! ### Token codes (R54, R58) -/

/-- The sentinel `!`, the first code of a pair form (00_scope R5, R54). -/
def codeSentinel : Code := 0x21
/-- `>` -/
def codeGt : Code := 0x3E
/-- `|` -/
def codeBar : Code := 0x7C
/-- `$` -/
def codeDlr : Code := 0x24
/-- `@` -/
def codeAt : Code := 0x40
/-- `A` -/
def codeA : Code := 0x41
/-- `a` -/
def codeLowerA : Code := 0x61
/-- `B` -/
def codeB : Code := 0x42
/-- `C` -/
def codeC : Code := 0x43
/-- `F` -/
def codeF : Code := 0x46
/-- `I` -/
def codeI : Code := 0x49
/-- `P` -/
def codeP : Code := 0x50
/-- `S` -/
def codeS : Code := 0x53
/-- `U` -/
def codeU : Code := 0x55

/-- Class PFX of R54: the single-character triggers. -/
def isPfx (c : Code) : Bool := c == codeGt || c == codeBar || c == codeDlr || c == codeAt

/-- Class SEC of R54: the second codes of the pair forms. -/
def isSec (c : Code) : Bool :=
  c == codeA || c == codeLowerA || c == codeB || c == codeC || c == codeF || c == codeI || c == codeP
    || c == codeS || c == codeU

/-! ### The packed layer (R51) -/

/-- Split an input byte at phase `k` into payload `v[6-k:0]` and carry-out `v[7:7-k]`. -/
def decodePacked (k : Fin 7) (v : Byte) : Instr :=
  match k with
  | 0 => .unp0 (v.extractLsb' 0 7) (v.extractLsb' 7 1)
  | 1 => .unp1 (v.extractLsb' 0 6) (v.extractLsb' 6 2)
  | 2 => .unp2 (v.extractLsb' 0 5) (v.extractLsb' 5 3)
  | 3 => .unp3 (v.extractLsb' 0 4) (v.extractLsb' 4 4)
  | 4 => .unp4 (v.extractLsb' 0 3) (v.extractLsb' 3 5)
  | 5 => .unp5 (v.extractLsb' 0 2) (v.extractLsb' 2 6)
  | 6 => .unp6 (v.extractLsb' 0 1) (v.extractLsb' 1 7)

/-! ### The token layer (R56) -/

/-- The 15 expander operations, as the code bus selects them. -/
inductive TokenOp where
  | aPass (code : Code)
  | bPfxGt
  | bPfxBar
  | bPfxDlr
  | bPfxAt
  | bPairA
  | bPairLowerA
  | bPairB
  | bPairC
  | bPairF
  | bPairI
  | bPairP
  | bPairS
  | bPairU
  | bLit (code : Code)
deriving DecidableEq, Repr

/-- A token operation as an instruction. -/
def TokenOp.toInstr : TokenOp → Instr
  | .aPass c => .aPass c
  | .bPfxGt => .bPfxGt
  | .bPfxBar => .bPfxBar
  | .bPfxDlr => .bPfxDlr
  | .bPfxAt => .bPfxAt
  | .bPairA => .bPairA
  | .bPairLowerA => .bPairLowerA
  | .bPairB => .bPairB
  | .bPairC => .bPairC
  | .bPairF => .bPairF
  | .bPairI => .bPairI
  | .bPairP => .bPairP
  | .bPairS => .bPairS
  | .bPairU => .bPairU
  | .bLit c => .bLit c

/-- The pair operation whose second code is `c`, where `c` is in class SEC (R54, R105 to R113). -/
def decodeSecond (c : Code) : Option TokenOp :=
  if c = codeA then some .bPairA
  else if c = codeLowerA then some .bPairLowerA
  else if c = codeB then some .bPairB
  else if c = codeC then some .bPairC
  else if c = codeF then some .bPairF
  else if c = codeI then some .bPairI
  else if c = codeP then some .bPairP
  else if c = codeS then some .bPairS
  else if c = codeU then some .bPairU
  else none

/-- The prefix operation of the single-character trigger `c`, where `c` is in class PFX (R54, R101 to R104). -/
def decodePrefix (c : Code) : Option TokenOp :=
  if c = codeGt then some .bPfxGt
  else if c = codeBar then some .bPfxBar
  else if c = codeDlr then some .bPfxDlr
  else if c = codeAt then some .bPfxAt
  else none

/-- The selection of R56, its tests in its order: dormant, single-character trigger, pair, literal. -/
def decodeToken (act : Mode) (prev c : Code) : TokenOp :=
  match act with
  | .dormant => .aPass c
  | .active =>
    match decodePrefix c with
    | some op => op
    | none =>
      if prev = codeSentinel then (decodeSecond c).getD (.bLit c) else .bLit c

/-- The decoder. -/
def decode (ctx : Context) (b : Byte) : Instr :=
  match ctx with
  | .packed k => decodePacked k b
  | .token act prev => (decodeToken act prev b).toInstr

/-- The state in which the table's TOKEN rows with a code of their own all apply: ACT = 1 and PREV = 0x21 (R65). A
table word says nothing of the state, so it is read in this one (log 10). -/
def tableContext : Context := .token .active codeSentinel

/-- The instruction read from a table word: the byte on the code bus in `tableContext`. Every row has eight bits. -/
def decodeTableWord (nbits w : Nat) : Option Instr :=
  if nbits ≤ 8 ∧ w < 256 then some (decode tableContext (BitVec.ofNat 8 w)) else none

/-! ### The encoder -/

/-- The byte of an operation: `{C, P}` on the packed layer (R51), the code on the token layer (R58). -/
def encode : Instr → Byte
  | .unp0 p c => c ++ p
  | .unp1 p c => c ++ p
  | .unp2 p c => c ++ p
  | .unp3 p c => c ++ p
  | .unp4 p c => c ++ p
  | .unp5 p c => c ++ p
  | .unp6 p c => c ++ p
  | .aPass c => c
  | .bPfxGt => 0x3E
  | .bPfxBar => 0x7C
  | .bPfxDlr => 0x24
  | .bPfxAt => 0x40
  | .bPairA => 0x41
  | .bPairLowerA => 0x61
  | .bPairB => 0x42
  | .bPairC => 0x43
  | .bPairF => 0x46
  | .bPairI => 0x49
  | .bPairP => 0x50
  | .bPairS => 0x53
  | .bPairU => 0x55
  | .bLit c => c

end Sys2Proof
end

