-- ==== Sys2Proof/Machine/Dict.lean ====
section
/-! DEFINITION. The DICT space: the trigger phrase and the thirteen expansion strings (20_memory R34, 30_encoding R59,
R60). The bytes are the ASCII codes R59 and R60 tabulate (log 11). -/

namespace Sys2Proof.Machine

/-- "loaded kext" (R59). -/
def trigger : List Byte := [0x6C, 0x6F, 0x61, 0x64, 0x65, 0x64, 0x20, 0x6B, 0x65, 0x78, 0x74]

/-- "com.apple.driver." -/
def strDriver : List Byte :=
  [0x63, 0x6F, 0x6D, 0x2E, 0x61, 0x70, 0x70, 0x6C, 0x65, 0x2E, 0x64, 0x72, 0x69, 0x76, 0x65, 0x72, 0x2E]
/-- "com.apple.iokit." -/
def strIokit : List Byte :=
  [0x63, 0x6F, 0x6D, 0x2E, 0x61, 0x70, 0x70, 0x6C, 0x65, 0x2E, 0x69, 0x6F, 0x6B, 0x69, 0x74, 0x2E]
/-- "com.apple.security." -/
def strSecurity : List Byte :=
  [0x63, 0x6F, 0x6D, 0x2E, 0x61, 0x70, 0x70, 0x6C, 0x65, 0x2E, 0x73, 0x65, 0x63, 0x75, 0x72, 0x69, 0x74, 0x79, 0x2E]
/-- "com.apple." -/
def strApplePrefix : List Byte := [0x63, 0x6F, 0x6D, 0x2E, 0x61, 0x70, 0x70, 0x6C, 0x65, 0x2E]

/-- "Apple" -/
def strApple : List Byte := [0x41, 0x70, 0x70, 0x6C, 0x65]
/-- "Action" -/
def strAction : List Byte := [0x41, 0x63, 0x74, 0x69, 0x6F, 0x6E]
/-- "Bluetooth" -/
def strBluetooth : List Byte := [0x42, 0x6C, 0x75, 0x65, 0x74, 0x6F, 0x6F, 0x74, 0x68]
/-- "Controller" -/
def strController : List Byte := [0x43, 0x6F, 0x6E, 0x74, 0x72, 0x6F, 0x6C, 0x6C, 0x65, 0x72]
/-- "Family" -/
def strFamily : List Byte := [0x46, 0x61, 0x6D, 0x69, 0x6C, 0x79]
/-- "Intel" -/
def strIntel : List Byte := [0x49, 0x6E, 0x74, 0x65, 0x6C]
/-- "Profile" -/
def strProfile : List Byte := [0x50, 0x72, 0x6F, 0x66, 0x69, 0x6C, 0x65]
/-- "Storage" -/
def strStorage : List Byte := [0x53, 0x74, 0x6F, 0x72, 0x61, 0x67, 0x65]
/-- "AppleUSB" -/
def strAppleUsb : List Byte := [0x41, 0x70, 0x70, 0x6C, 0x65, 0x55, 0x53, 0x42]

/-- `DICT1(c)`, defined for the four single-character triggers (R34, R60). -/
def dict1 (c : Code) : Option (List Byte) :=
  if c = codeGt then some strDriver
  else if c = codeBar then some strIokit
  else if c = codeDlr then some strSecurity
  else if c = codeAt then some strApplePrefix
  else none

/-- `DICT2(c)`, defined for the nine second codes (R34, R60). -/
def dict2 (c : Code) : Option (List Byte) :=
  if c = codeA then some strApple
  else if c = codeLowerA then some strAction
  else if c = codeB then some strBluetooth
  else if c = codeC then some strController
  else if c = codeF then some strFamily
  else if c = codeI then some strIntel
  else if c = codeP then some strProfile
  else if c = codeS then some strStorage
  else if c = codeU then some strAppleUsb
  else none

end Sys2Proof.Machine
end

