-- ==== Sys2Proof/Machine/State.lean ====
section
/-! DEFINITION. The state of the block (10_state R10), the ways a step can stop, and the state after reset. -/

namespace Sys2Proof.Machine

/-- The bytes of a space by address (20_memory R30): the cells of addresses 0, 1, 2, … in rising order, none missing
(`Memory.wf` in Machine/Ops.lean). An address that is not listed does not exist and reads as no value (log 7). -/
abbrev Memory := List Host.Cell

/-- What the host gives the block. START, STEP and FINISH are the commands of 43_decoder R131 to R133; `startWithStep`
is a START given at the same time as a STEP (60_exceptions R153); `drive` is a code put on the expander's own interface
when it is driven on its own (30_encoding R62, log 5). -/
inductive Command where
  | start (buffer : List Byte)
  | startWithStep (buffer : List Byte)
  | step
  | finish
  | drive (code : Code)
deriving DecidableEq, Repr

/-- The state: the registers of R10, the launch parameter IN (R21) and the commands the host is going to give (log 1).
OLEN is the number of bytes of OUT (R17) and EPOS is derived (R16). -/
structure State where
  /-- LOW, the carry register, 7 bits (R11). -/
  low : BitVec 7
  /-- BIT, the phase counter, 0 to 6 (R12). -/
  bit : Fin 7
  /-- PREV, the lookback register, 8 bits (R13). -/
  prev : Code
  /-- ACT, the one-way latch (R14). -/
  act : Mode
  /-- OUT, the output string (R17, R32). -/
  out : Memory
  /-- IPOS, the index of the next input byte (R15). -/
  ipos : Nat
  /-- ST, the run status (R18). -/
  st : RunStatus
  /-- IN, the compressed buffer of the decode (R21, R31). -/
  input : Memory
  /-- The host's coming commands, the next one first (the model's own, log 1). -/
  host : List Command
deriving DecidableEq, Repr

/-- The block raises no exception (60_exceptions R150): there is no fault. -/
inductive Fault where
deriving DecidableEq, Repr

/-- The ways a step is refused. -/
inductive Refusal where
  /-- Raised by an arm of `exec` for an operation without a meaning; safe. No arm does. -/
  | notModelled (mnemonic : String)
  /-- Raised by STEP with ST not RUN (43_decoder R135); safe. -/
  | stepNotRunning
  /-- Raised by STEP in RUN with no byte at IPOS, that is IPOS = N (R135); safe. -/
  | stepPastEnd
  /-- Raised by FINISH with ST not RUN (R135); safe. -/
  | finishNotRunning
  /-- Raised by FINISH in RUN with IPOS other than N (R135); safe. -/
  | finishBeforeEnd
  /-- Raised by a code driven on the expander's interface with ST not RUN (the model's own input, log 5); safe. -/
  | driveNotRunning
  /-- Raised by a pair operation on an empty OUT, where `pop` has no meaning (20_memory R33, 42_expander_active R114);
  no run reaches it; safe (log 6). -/
  | popOfEmptyOut
deriving DecidableEq, Repr

/-- What a meaning answers. -/
abbrev Result := Host.Outcome State Fault Refusal

/-- Power-on reset (10_state R25, 70_reset_and_hazards R170): every register 0, OUT empty, dormant, IDLE. No buffer has
been launched (log 2) and no command is waiting (log 1). -/
def State.reset : State where
  low := 0
  bit := 0
  prev := 0
  act := .dormant
  out := []
  ipos := 0
  st := .idle
  input := []
  host := []

end Sys2Proof.Machine
end

