-- ==== Sys2Proof/Machine/Ops.lean ====
section
/-! DEFINITION. The named operations over the spaces (20_memory R31, R33) and over the registers. The block raises no
exception (60_exceptions R150, R154), so there is no operation that takes one. -/

namespace Sys2Proof.Machine

/-! ### A space -/

/-- The canonical form: the cells are those of addresses 0, 1, …, size - 1 in rising order. -/
abbrev Memory.wf (m : Memory) : Prop := m.map (fun cell => cell.1) = List.range m.length

/-- The number of bytes of a space: N of IN, OLEN of OUT. -/
def Memory.size (m : Memory) : Nat := m.length

/-- The bytes of a space from address 0 on. -/
def Memory.bytes (m : Memory) : List Byte := m.map fun cell => cell.2

/-- `MemRead`: the byte at an address; none where the space has no such address. -/
def Memory.read (m : Memory) (a : Nat) : Option Byte := (m.find? fun cell => cell.1 == a).map fun cell => cell.2

/-- `append(b)`: store `b` at the first free address (R33). -/
def Memory.append (m : Memory) (b : Byte) : Memory := m ++ [(m.length, b)]

/-- `append_str(S)`: append each byte of `S`, the first first (R33). -/
def Memory.appendStr (m : Memory) (bs : List Byte) : Memory := bs.foldl Memory.append m

/-- The effect of `pop()` on a space that is not empty: the last byte is no longer part of it (R33, U8). -/
def Memory.pop (m : Memory) : Memory := m.dropLast

/-- `tail(n)`: the last `n` bytes, defined where there are as many (00_scope R7, R33). -/
def Memory.tail (m : Memory) (n : Nat) : Option (List Byte) :=
  if n ≤ m.length then some (Memory.bytes (m.drop (m.length - n))) else none

/-- The space that holds `bs` from address 0 on. -/
def Memory.ofBytes (bs : List Byte) : Memory := Memory.appendStr [] bs

/-! ### Views of the state -/

/-- The output string as bytes. -/
def State.outBytes (s : State) : List Byte := Memory.bytes s.out

/-- OLEN (10_state R17). -/
def State.olen (s : State) : Nat := Memory.size s.out

/-- N, the length of the buffer (10_state R21). -/
def State.n (s : State) : Nat := Memory.size s.input

/-- EPOS, the number of codes emitted so far (10_state R16). -/
def State.epos (s : State) : Nat := s.ipos + s.ipos / 7

/-! ### Register writes -/

/-- OUT <- m. -/
def State.setOut (s : State) (m : Memory) : State := { s with out := m }

/-- PREV <- c. -/
def State.setPrev (s : State) (c : Code) : State := { s with prev := c }

/-- ACT <- m. -/
def State.setAct (s : State) (m : Mode) : State := { s with act := m }

/-- LOW <- low; BIT <- bit. -/
def State.setUnpacker (s : State) (low : BitVec 7) (bit : Fin 7) : State := { s with low := low, bit := bit }

/-- IPOS <- IPOS + 1 (10_state R15). -/
def State.advance (s : State) : State := { s with ipos := s.ipos + 1 }

/-- ST <- st. -/
def State.setSt (s : State) (st : RunStatus) : State := { s with st := st }

/-- The host's coming commands become `cmds`. -/
def State.setHost (s : State) (cmds : List Command) : State := { s with host := cmds }

/-! ### Operations on OUT -/

/-- `append(c)` on OUT. -/
def appendCode (c : Code) (s : State) : State := s.setOut (Memory.append s.out c)

/-- `append_str(S)` on OUT. -/
def appendString (bs : List Byte) (s : State) : State := s.setOut (Memory.appendStr s.out bs)

/-- `pop()` on OUT; without meaning on an empty OUT (R33: "it requires OLEN >= 1"; log 6). -/
def popOut (s : State) : Result :=
  match s.out with
  | [] => .refused .popOfEmptyOut
  | _ :: _ => .next (s.setOut (Memory.pop s.out))

/-- Go on with `f` from the next state, or stop as `r` stops. -/
def andThen (r : Result) (f : State → Result) : Result :=
  match r with
  | .next s => f s
  | .fault e => .fault e
  | .refused e => .refused e

end Sys2Proof.Machine
end

