-- ==== Sys2Proof/Machine/Active.lean ====
section
/-! DEFINITION. The expander in State B: the four B.PFX, the nine B.PAIR and B.LIT (42_expander_active R101 to R113,
R118). -/

namespace Sys2Proof.Machine

/-- `append_str(S); PREV <- 0`: the shape of R101 to R104. -/
def prefixExpansion (bs : List Byte) (s : State) : Result := .next ((appendString bs s).setPrev 0)

/-- `pop(); append_str(S); PREV <- 0`: the shape of R105 to R113. -/
def pairExpansion (bs : List Byte) (s : State) : Result := andThen (popOut s) (prefixExpansion bs)

/-- B.PFX.GT (R101). -/
def execBPfxGt (s : State) : Result := prefixExpansion strDriver s
/-- B.PFX.BAR (R102). -/
def execBPfxBar (s : State) : Result := prefixExpansion strIokit s
/-- B.PFX.DLR (R103). -/
def execBPfxDlr (s : State) : Result := prefixExpansion strSecurity s
/-- B.PFX.AT (R104). -/
def execBPfxAt (s : State) : Result := prefixExpansion strApplePrefix s

/-- B.PAIR.A (R105). -/
def execBPairA (s : State) : Result := pairExpansion strApple s
/-- B.PAIR.a (R106). -/
def execBPairLowerA (s : State) : Result := pairExpansion strAction s
/-- B.PAIR.B (R107). -/
def execBPairB (s : State) : Result := pairExpansion strBluetooth s
/-- B.PAIR.C (R108). -/
def execBPairC (s : State) : Result := pairExpansion strController s
/-- B.PAIR.F (R109). -/
def execBPairF (s : State) : Result := pairExpansion strFamily s
/-- B.PAIR.I (R110). -/
def execBPairI (s : State) : Result := pairExpansion strIntel s
/-- B.PAIR.P (R111). -/
def execBPairP (s : State) : Result := pairExpansion strProfile s
/-- B.PAIR.S (R112). -/
def execBPairS (s : State) : Result := pairExpansion strStorage s
/-- B.PAIR.U (R113). -/
def execBPairU (s : State) : Result := pairExpansion strAppleUsb s

/-- B.LIT (R118): append the code and remember it. -/
def execBLit (c : Code) (s : State) : Result := .next ((appendCode c s).setPrev c)

end Sys2Proof.Machine
end

