-- ==== Sys2Proof/Machine/Flags.lean ====
section
/-! DEFINITION. The one flag of the block, ACT (10_state R14): when A.PASS sets it. -/

namespace Sys2Proof.Machine

/-- ACT after an append in State A: set where `tail(11)` is the trigger phrase, else as it was; fewer than 11 bytes
compare as false (41_expander_dormant R91). -/
def latchAfter (out : Memory) (act : Mode) : Mode :=
  if Memory.tail out 11 = some trigger then .active else act

end Sys2Proof.Machine
end

