-- ==== Sys2Proof/Machine/Dormant.lean ====
section
/-! DEFINITION. The expander in State A: A.PASS (41_expander_dormant R91). -/

namespace Sys2Proof.Machine

/-- A.PASS (R91): append the code, then watch for the trigger phrase. PREV is not written (90_conflicts C2). -/
def execAPass (c : Code) (s : State) : Result :=
  let s' := appendCode c s
  .next (s'.setAct (latchAfter s'.out s'.act))

end Sys2Proof.Machine
end

