-- ==== Sys2Proof/Machine/Expander.lean ====
section
/-! DEFINITION. One run of the TokenExpander on one code (41_expander_dormant R90, 43_decoder R132 `expand(c)`). -/

namespace Sys2Proof.Machine

/-- Run the operation that ACT, PREV and the code select (30_encoding R56). `emit(c)` in the unpacker is this, to
completion (00_scope R7). -/
def expand (c : Code) (s : State) : Result :=
  match decodeToken s.act s.prev c with
  | .aPass c' => execAPass c' s
  | .bPfxGt => execBPfxGt s
  | .bPfxBar => execBPfxBar s
  | .bPfxDlr => execBPfxDlr s
  | .bPfxAt => execBPfxAt s
  | .bPairA => execBPairA s
  | .bPairLowerA => execBPairLowerA s
  | .bPairB => execBPairB s
  | .bPairC => execBPairC s
  | .bPairF => execBPairF s
  | .bPairI => execBPairI s
  | .bPairP => execBPairP s
  | .bPairS => execBPairS s
  | .bPairU => execBPairU s
  | .bLit c' => execBLit c' s

end Sys2Proof.Machine
end

