-- ==== Sys2Proof/Machine/Operands.lean ====
section
/-! DEFINITION. The operand forms of the unpacker: how a code is put together from payload, carried bits and carry-out
(30_encoding R52, R53). Nothing is sign-extended and every value fits in its width (00_scope R6, 40_unpacker R80). -/

namespace Sys2Proof.Machine

/-- The first code at phase `k`: the payload moved up by `k`, or-ed with LOW (R52, 40_unpacker R71 step 1). The payload
is `v & (0x7F >> k)`. LOW is or-ed at every phase, phase 0 included, as R71 has it (log 4). -/
def firstCode (k : Nat) {w : Nat} (p : BitVec w) (low : BitVec 7) : Code := (p.setWidth 8 <<< k) ||| low.setWidth 8

/-- The carry-out `v >> (7 - k)` as the new LOW (R53, R71 step 2). -/
def carriedLow {w : Nat} (c : BitVec w) : BitVec 7 := c.setWidth 7

/-- The carry-out of phase 6 as the second code (R52, R71 step 3); bit 7 of the bus is 0. -/
def secondCode (c : BitVec 7) : Code := c.setWidth 8

end Sys2Proof.Machine
end

