-- ==== Sys2Proof/Machine/Unpacker.lean ====
section
/-! DEFINITION. The BitstreamUnpacker: UNP0 to UNP6 (40_unpacker R71, R73 to R79). -/

namespace Sys2Proof.Machine

/-- `emit(code)`, then `LOW <- C; BIT <- next`: the shape of R73 to R78 (R71 steps 1, 2, 4). -/
def unpackOne (k : Nat) {w w' : Nat} (p : BitVec w) (c : BitVec w') (next : Fin 7) (s : State) : Result :=
  andThen (expand (firstCode k p s.low) s) fun s' => .next (s'.setUnpacker (carriedLow c) next)

/-- UNP0 (R73). -/
def execUnp0 (p : BitVec 7) (c : BitVec 1) (s : State) : Result := unpackOne 0 p c 1 s
/-- UNP1 (R74). -/
def execUnp1 (p : BitVec 6) (c : BitVec 2) (s : State) : Result := unpackOne 1 p c 2 s
/-- UNP2 (R75). -/
def execUnp2 (p : BitVec 5) (c : BitVec 3) (s : State) : Result := unpackOne 2 p c 3 s
/-- UNP3 (R76). -/
def execUnp3 (p : BitVec 4) (c : BitVec 4) (s : State) : Result := unpackOne 3 p c 4 s
/-- UNP4 (R77). -/
def execUnp4 (p : BitVec 3) (c : BitVec 5) (s : State) : Result := unpackOne 4 p c 5 s
/-- UNP5 (R78). -/
def execUnp5 (p : BitVec 2) (c : BitVec 6) (s : State) : Result := unpackOne 5 p c 6 s

/-- UNP6 (R79): the expander finishes with the first code before it sees the second; then LOW and BIT are cleared. -/
def execUnp6 (p : BitVec 1) (c : BitVec 7) (s : State) : Result :=
  andThen (expand (firstCode 6 p s.low) s) fun s₁ =>
    andThen (expand (secondCode c) s₁) fun s₂ => .next (s₂.setUnpacker 0 0)

end Sys2Proof.Machine
end

