-- ==== Sys2Proof/Machine/Dispatch.lean ====
section
/-! DEFINITION. One arm per operation. -/

namespace Sys2Proof.Machine

def exec (i : Instr) (s : State) : Host.Outcome State Fault Refusal :=
  match i with
  | .unp0 p c => Sys2Proof.Machine.execUnp0 p c s
  | .unp1 p c => Sys2Proof.Machine.execUnp1 p c s
  | .unp2 p c => Sys2Proof.Machine.execUnp2 p c s
  | .unp3 p c => Sys2Proof.Machine.execUnp3 p c s
  | .unp4 p c => Sys2Proof.Machine.execUnp4 p c s
  | .unp5 p c => Sys2Proof.Machine.execUnp5 p c s
  | .unp6 p c => Sys2Proof.Machine.execUnp6 p c s
  | .aPass code => Sys2Proof.Machine.execAPass code s
  | .bPfxGt => Sys2Proof.Machine.execBPfxGt s
  | .bPfxBar => Sys2Proof.Machine.execBPfxBar s
  | .bPfxDlr => Sys2Proof.Machine.execBPfxDlr s
  | .bPfxAt => Sys2Proof.Machine.execBPfxAt s
  | .bPairA => Sys2Proof.Machine.execBPairA s
  | .bPairLowerA => Sys2Proof.Machine.execBPairLowerA s
  | .bPairB => Sys2Proof.Machine.execBPairB s
  | .bPairC => Sys2Proof.Machine.execBPairC s
  | .bPairF => Sys2Proof.Machine.execBPairF s
  | .bPairI => Sys2Proof.Machine.execBPairI s
  | .bPairP => Sys2Proof.Machine.execBPairP s
  | .bPairS => Sys2Proof.Machine.execBPairS s
  | .bPairU => Sys2Proof.Machine.execBPairU s
  | .bLit code => Sys2Proof.Machine.execBLit code s

end Sys2Proof.Machine
end

