-- ==== Sys2Proof/Machine/Decoder.lean ====
section
/-! DEFINITION. The Decoder: the host commands START, STEP and FINISH (43_decoder R131 to R135), a code driven on the
expander's own interface, what the host observes (R136), and how a decode is put before the block. -/

namespace Sys2Proof.Machine

/-- START (R131): the reset of R25 with ST = RUN; IN is the command's buffer. Enabled in every value of ST. -/
def cmdStart (buffer : List Byte) (s : State) : Result :=
  .next
    { s with
      low := 0
      bit := 0
      prev := 0
      act := .dormant
      out := []
      ipos := 0
      st := .run
      input := Memory.ofBytes buffer }

/-- STEP (R132): read `IN[IPOS]`, advance IPOS, run the operation UNP<BIT> on the byte. Enabled when ST = RUN and
IPOS < N, else refused (R135). -/
def cmdStep (s : State) : Result :=
  match s.st with
  | .run =>
    match Memory.read s.input s.ipos with
    | some v => exec (decode (.packed s.bit) v) s.advance
    | none => .refused .stepPastEnd
  | .idle => .refused .stepNotRunning
  | .done => .refused .stepNotRunning

/-- FINISH (R133): ST <- DONE and nothing else. Enabled when ST = RUN and IPOS = N, else refused (R135). -/
def cmdFinish (s : State) : Result :=
  match s.st with
  | .run => if s.ipos = s.n then .next (s.setSt .done) else .refused .finishBeforeEnd
  | .idle => .refused .finishNotRunning
  | .done => .refused .finishNotRunning

/-- A code on the expander's own interface (30_encoding R62; log 5): the one operation it selects, nothing else. -/
def cmdDrive (c : Code) (s : State) : Result :=
  match s.st with
  | .run => exec (decode (.token s.act s.prev) c) s
  | .idle => .refused .driveNotRunning
  | .done => .refused .driveNotRunning

/-- One command of the host. A START given with a STEP takes effect as START and no byte is consumed (60_exceptions
R153). -/
def runCommand (cmd : Command) (s : State) : Result :=
  match cmd with
  | .start buffer => cmdStart buffer s
  | .startWithStep buffer => cmdStart buffer s
  | .step => cmdStep s
  | .finish => cmdFinish s
  | .drive c => cmdDrive c s

/-! ### What the host observes -/

/-- What the host may observe (R136): ST and OLEN at any time, OUT as a result only at DONE. -/
structure HostView where
  st : RunStatus
  olen : Nat
  result : Option (List Byte)
deriving DecidableEq, Repr

/-- The host's view of a state (R136). -/
def observe (s : State) : HostView where
  st := s.st
  olen := s.olen
  result := match s.st with
    | .idle => none
    | .run => none
    | .done => some s.outBytes

/-! ### Putting work before the block -/

/-- The commands of one decode in the order of 70_reset_and_hazards R173: START, a STEP per byte, FINISH. -/
def decodeScript (buffer : List Byte) : List Command :=
  .start buffer :: (List.replicate buffer.length .step ++ [.finish])

/-- ACT = 1 as a run reaches it: where the block is dormant, the trigger phrase has just been passed. -/
def armLatch (s : State) : State :=
  match s.act with
  | .dormant => { s with act := .active, out := Memory.appendStr s.out trigger }
  | .active => s

/-- PREV = 0x21 as a run reaches it: the sentinel has just been handled by B.LIT. -/
def armSentinel (s : State) : State :=
  if s.prev = codeSentinel then s
  else { s with prev := codeSentinel, out := Memory.append s.out codeSentinel }

/-- A decode is in progress, ACT = 1, PREV = 0x21 where the code is the second of a pair, and `c` is the next thing the
host gives. -/
def presentCode (c : Code) (s : State) : State :=
  let s₁ := armLatch s
  let s₂ := if isSec c then armSentinel s₁ else s₁
  { s₂ with st := .run, host := .drive c :: s.host }

end Sys2Proof.Machine
end

