-- ==== Sys2Proof/Machine/Step.lean ====
section
/-! DEFINITION. One step: one command of the host, atomic (20_memory R40, 92_eei_decisions D1). -/

namespace Sys2Proof.Machine

/-- The next command takes effect; with no command the block holds its state (60_exceptions R162, log 1). -/
def step (s : State) : Host.Outcome State Fault Refusal :=
  match s.host with
  | [] => .next s
  | cmd :: rest => runCommand cmd (s.setHost rest)

/-- The table word's byte on the code bus, in the state its row needs (log 10): the next step runs it. -/
def State.withFetchWord (s : State) (_nbits w : Nat) : State := presentCode (BitVec.ofNat 8 w) s

end Sys2Proof.Machine
end

