-- ==== Sys2Proof/Config.lean ====
section
/-! DEFINITION. The parameters of 00_scope R5. The fixed ones are numbers; of the OPEN ones N comes with the
buffer of START, and OUT_CAP and IPOS_W are arguments of the claims that need them (`Config.Open`). -/

namespace Sys2Proof.Config

/-- PERIOD: input bytes per unpacker cycle (R5). -/
def period : Nat := 7

/-- TRIG_LEN: length of the trigger phrase (R5). -/
def trigLen : Nat := 11

/-- MAX_EXP: length of the longest expansion string (R5). -/
def maxExp : Nat := 19

/-- The OPEN parameters a finite implementation fixes (R5): the capacity of OUT (D6) and the width of IPOS (D7).
The architectural model depends on neither. -/
structure Open where
  outCap : Nat
  iposW  : Nat
deriving DecidableEq, Repr

end Sys2Proof.Config
end

