-- ==== Sys2Proof/Machine/Deferred.lean ====
section
/-! DEFINITION. The two implementation variants the spec allows in place of architectural mechanisms (10_state R24):
the deferred emission with a hold register (43_decoder R138, R139) and the incremental matcher of the trigger phrase
(41_expander_dormant R93). They are no part of `State` (log 12). -/

namespace Sys2Proof.Machine

/-- The expander of the deferred form: the committed output OUT', HOLD (none is its cleared valid bit), ACT. -/
structure Deferred where
  out : Memory
  hold : Option Code
  act : Mode
deriving DecidableEq, Repr

/-- The deferred form after START: HOLD invalid (10_state R25). -/
def Deferred.reset : Deferred where
  out := []
  hold := none
  act := .dormant

/-- "if HOLD not empty: append'(HOLD); HOLD <- empty" (R139). -/
def Deferred.commit (d : Deferred) : Deferred :=
  match d.hold with
  | none => d
  | some h => { d with out := Memory.append d.out h, hold := none }

/-- `append_str'(S)` (R139). -/
def Deferred.write (bs : List Byte) (d : Deferred) : Deferred := { d with out := Memory.appendStr d.out bs }

/-- One code in the deferred form (R139). -/
def Deferred.expand (c : Code) (d : Deferred) : Deferred :=
  match d.act with
  | .dormant =>
    let out := Memory.append d.out c
    { d with out := out, act := latchAfter out d.act }
  | .active =>
    match dict1 c with
    | some bs => d.commit.write bs
    | none =>
      match if d.hold = some codeSentinel then dict2 c else none with
      | some bs => Deferred.write bs { d with hold := none }
      | none => { d.commit with hold := some c }

/-- FINISH flushes HOLD (R139, 70_reset_and_hazards R180). -/
def Deferred.finish (d : Deferred) : Deferred := d.commit

/-- One update of MATCH (R93). -/
def matchNext (m : Nat) (c : Code) : Nat :=
  if trigger[m]? = some c then m + 1 else if trigger[0]? = some c then 1 else 0

/-- MATCH after a sequence of codes received in State A from reset (R93). -/
def matchAfter (cs : List Code) : Nat := cs.foldl matchNext 0

end Sys2Proof.Machine
end

