-- ==== Sys2Proof/Machine/Reference.lean ====
section
/-! DEFINITION. The functions the spec states about a whole decode, on plain lists and naturals, for claims to compare
the machine with: `unpack` (40_unpacker R71), the closed formula of the bit stream (20_memory R35), `expand_all`
(43_decoder R134), the reading of token forms as forms of length 1 and 2 (30_encoding R55), the rows of the opcode table
(R65), and the reference packer of 95_test_vectors section 4, a test tool and no part of the hardware. -/

namespace Sys2Proof.Machine

/-! ### The unpacker on lists -/

/-- The algorithm of R71 on naturals, from LOW = `low` and BIT = `bit`: all codes of the bytes, in emission order. -/
def unpackFrom (low bit : Nat) : List Byte → List Code
  | [] => []
  | v :: vs =>
    let code := BitVec.ofNat 8 (((v.toNat &&& (0x7F >>> bit)) <<< bit) ||| low)
    let newLow := v.toNat >>> (7 - bit)
    if bit = 6 then code :: BitVec.ofNat 8 newLow :: unpackFrom 0 0 vs
    else code :: unpackFrom newLow (bit + 1) vs

/-- LOW and BIT after the bytes, by the same algorithm. -/
def unpackerAfter (low bit : Nat) : List Byte → Nat × Nat
  | [] => (low, bit)
  | v :: vs => if bit = 6 then unpackerAfter 0 0 vs else unpackerAfter (v.toNat >>> (7 - bit)) (bit + 1) vs

/-- `unpack(IN)` (R134). -/
def unpack (bs : List Byte) : List Code := unpackFrom 0 0 bs

/-- The bytes read as one little-endian number: stream bit `8*i + b` is bit b of byte i (R35). -/
def streamNumber : List Byte → Nat
  | [] => 0
  | v :: vs => v.toNat + 256 * streamNumber vs

/-- Code j of the stream: seven consecutive stream bits from bit `7*j` on, `(G >> (7*j)) & 0x7F` (R35). -/
def streamCode (bs : List Byte) (j : Nat) : Code := BitVec.ofNat 8 ((streamNumber bs >>> (7 * j)) &&& 0x7F)

/-! ### The expander on lists -/

/-- `expand_all(cs)` from a state (R134). -/
def expandAll : List Code → State → Result
  | [], s => .next s
  | c :: cs, s => andThen (expand c s) (expandAll cs)

/-- The state of the expander right after START: dormant, PREV 0, OUT empty (10_state R25). -/
def State.started : State := { State.reset with st := .run }

/-- Text of State B read as token forms (R55): a single-character trigger is a form of length 1, the sentinel directly
followed by a second code a form of length 2, every other code stands for itself. -/
def readForms : List Code → List Byte
  | [] => []
  | [c] => (dict1 c).getD [c]
  | c :: d :: rest =>
    match dict1 c with
    | some bs => bs ++ readForms (d :: rest)
    | none =>
      match if c = codeSentinel then dict2 d else none with
      | some bs => bs ++ readForms rest
      | none => c :: readForms (d :: rest)

/-! ### The opcode table (R65) -/

/-- A TOKEN row of spec/opcode_table.json. -/
structure TokenRow where
  mnemonic : String
  code : Code
  mask : Code
  act : Mode
  prev : Option Code
  priority : Nat
  op : TokenOp
deriving DecidableEq, Repr

/-- The fifteen TOKEN rows in the table's order. The operand of A.PASS and B.LIT is the code that is matched; the row
holds 0 in its place. -/
def tokenRows : List TokenRow :=
  [⟨"A.PASS", 0x00, 0x00, .dormant, none, 1, .aPass 0⟩,
   ⟨"B.PFX.GT", 0x3E, 0xFF, .active, none, 2, .bPfxGt⟩,
   ⟨"B.PFX.BAR", 0x7C, 0xFF, .active, none, 2, .bPfxBar⟩,
   ⟨"B.PFX.DLR", 0x24, 0xFF, .active, none, 2, .bPfxDlr⟩,
   ⟨"B.PFX.AT", 0x40, 0xFF, .active, none, 2, .bPfxAt⟩] ++
  [⟨"B.PAIR.A", 0x41, 0xFF, .active, some 0x21, 3, .bPairA⟩,
   ⟨"B.PAIR.a", 0x61, 0xFF, .active, some 0x21, 3, .bPairLowerA⟩,
   ⟨"B.PAIR.B", 0x42, 0xFF, .active, some 0x21, 3, .bPairB⟩,
   ⟨"B.PAIR.C", 0x43, 0xFF, .active, some 0x21, 3, .bPairC⟩,
   ⟨"B.PAIR.F", 0x46, 0xFF, .active, some 0x21, 3, .bPairF⟩,
   ⟨"B.PAIR.I", 0x49, 0xFF, .active, some 0x21, 3, .bPairI⟩,
   ⟨"B.PAIR.P", 0x50, 0xFF, .active, some 0x21, 3, .bPairP⟩,
   ⟨"B.PAIR.S", 0x53, 0xFF, .active, some 0x21, 3, .bPairS⟩,
   ⟨"B.PAIR.U", 0x55, 0xFF, .active, some 0x21, 3, .bPairU⟩] ++
  [⟨"B.LIT", 0x00, 0x00, .active, none, 4, .bLit 0⟩]

/-- The row's condition holds: ACT, PREV where it matters, and `(code & mask) == match`. -/
def TokenRow.applies (r : TokenRow) (act : Mode) (prev c : Code) : Bool :=
  r.act == act && (r.prev == none || r.prev == some prev) && (c &&& r.mask) == r.code

/-- The row's operation with the code as the operand of a row that keeps it. -/
def TokenRow.operation (r : TokenRow) (c : Code) : TokenOp :=
  match r.op with
  | .aPass _ => .aPass c
  | .bLit _ => .bLit c
  | .bPfxGt => .bPfxGt
  | .bPfxBar => .bPfxBar
  | .bPfxDlr => .bPfxDlr
  | .bPfxAt => .bPfxAt
  | .bPairA => .bPairA
  | .bPairLowerA => .bPairLowerA
  | .bPairB => .bPairB
  | .bPairC => .bPairC
  | .bPairF => .bPairF
  | .bPairI => .bPairI
  | .bPairP => .bPairP
  | .bPairS => .bPairS
  | .bPairU => .bPairU

/-- `op` is what the table selects: a row that applies gives it, and every other row that applies has a higher priority
number (R65: "1 first"). -/
def tableSelects (act : Mode) (prev c : Code) (op : TokenOp) : Prop :=
  ∃ r ∈ tokenRows, r.applies act prev c = true ∧ op = r.operation c ∧
    ∀ r' ∈ tokenRows, r'.applies act prev c = true → r' = r ∨ r.priority < r'.priority

/-! ### The reference packer (95_test_vectors section 4) -/

/-- One block of eight codes as the low `n` bytes of its 56-bit number. -/
def packBytes (g : Nat) (n : Nat) : List Byte := (List.range n).map fun i => BitVec.ofNat 8 (g >>> (8 * i))

/-- The codes of a block as one number, seven bits each, the first lowest. -/
def blockNumber : List Code → Nat
  | [] => 0
  | c :: cs => c.toNat + 128 * blockNumber cs

/-- Pack block by block; a list that ends inside a block is padded with zero codes and keeps `min (L mod 8) 7` bytes of
its last block. -/
def pack : List Code → List Byte
  | c₀ :: c₁ :: c₂ :: c₃ :: c₄ :: c₅ :: c₆ :: c₇ :: rest =>
    packBytes (blockNumber [c₀, c₁, c₂, c₃, c₄, c₅, c₆, c₇]) 7 ++ pack rest
  | short => packBytes (blockNumber short) (min short.length 7)

end Sys2Proof.Machine
end

