-- ==== Sys2Proof/Safety.lean ====
section
/-! DEFINITION. The terms claims are stated in: the invariants of the spec (10_state R19, R20) and what counts as a host
that keeps the contract. -/

namespace Sys2Proof.Machine

/-- `pop()` has its byte wherever a pair operation can be selected (42_expander_active R114). -/
def PopSafe (s : State) : Prop := s.prev = codeSentinel → s.out ≠ []

/-- What every state of every run satisfies. -/
structure RunInv (s : State) : Prop where
  /-- OUT is the bytes at 0 to OLEN - 1 (20_memory R32). -/
  outWf : Memory.wf s.out
  /-- IN is the bytes at 0 to N - 1 (R31). -/
  inputWf : Memory.wf s.input
  /-- IPOS never exceeds N (10_state R15). -/
  iposLe : s.ipos ≤ s.n
  /-- `BIT = IPOS mod 7` (R19 b). -/
  phase : s.bit.val = s.ipos % 7
  /-- `LOW < 2^BIT` (R19 c). -/
  lowBound : s.low.toNat < 2 ^ s.bit.val
  /-- Dormant: PREV = 0 and the phrase has not occurred (R20 a, 41_expander_dormant R92). -/
  dormant : s.act = .dormant → s.prev = 0 ∧ ¬ trigger <:+: s.outBytes
  /-- Active: some prefix of OUT ends with the trigger phrase (R20 b). -/
  active : s.act = .active → trigger <:+: s.outBytes
  /-- PREV not 0: active, and the last byte of OUT is PREV (R20 c). -/
  lookback : s.prev ≠ 0 → s.act = .active ∧ s.outBytes.getLast? = some s.prev
  /-- IDLE: nothing but power-on reset has happened (R18). -/
  idle : s.st = .idle → s = { State.reset with host := s.host }
  /-- DONE: all of IN has been consumed (R141). -/
  finished : s.st = .done → s.ipos = s.n

/-- The host drives the composed block only: no code on the expander's own interface is coming. -/
def Composed (s : State) : Prop := ∀ c, Command.drive c ∉ s.host

/-- What every state of every run of the composed block satisfies beside `RunInv`: the state is the fold of the bytes
consumed so far (43_decoder R134). -/
structure FoldInv (s : State) : Prop where
  /-- No code is coming on the expander's own interface. -/
  composed : Composed s
  /-- LOW and BIT are those of the unpacker after `IN[0] .. IN[IPOS-1]`. -/
  unpacker : (s.low.toNat, s.bit.val) = unpackerAfter 0 0 ((Memory.bytes s.input).take s.ipos)
  /-- PREV, ACT and OUT are those of the expander after the codes of `IN[0] .. IN[IPOS-1]`. -/
  expander : ∃ u, expandAll (unpack ((Memory.bytes s.input).take s.ipos)) State.started = .next u ∧
    u.prev = s.prev ∧ u.act = s.act ∧ u.out = s.out

/-- The output of a device of capacity OUT_CAP has not overflowed (20_memory R48). -/
def FitsCapacity (p : Config.Open) (s : State) : Prop := s.olen ≤ p.outCap

/-- `k` steps of the machine answer the state `t` (no step is refused). -/
def Reaches : Nat → State → State → Prop
  | 0, s, t => s = t
  | k + 1, s, t => ∃ u, step s = .next u ∧ Reaches k u t

/-- An expander operation, that is a TOKEN row of the table. -/
def isExpander : Instr → Bool
  | .unp0 _ _ => false
  | .unp1 _ _ => false
  | .unp2 _ _ => false
  | .unp3 _ _ => false
  | .unp4 _ _ => false
  | .unp5 _ _ => false
  | .unp6 _ _ => false
  | .aPass _ => true
  | .bPfxGt => true
  | .bPfxBar => true
  | .bPfxDlr => true
  | .bPfxAt => true
  | .bPairA => true
  | .bPairLowerA => true
  | .bPairB => true
  | .bPairC => true
  | .bPairF => true
  | .bPairI => true
  | .bPairP => true
  | .bPairS => true
  | .bPairU => true
  | .bLit _ => true

/-! ### Shapes of the rules of the operations -/

/-- The one-code shape of 40_unpacker R73 to R78: the operation emits `code` (the expander handles it to completion),
then LOW and BIT are written, and it answers that state. -/
def EmitsOne (s : State) (i : Instr) (code : Code) (low : BitVec 7) (bit : Fin 7) : Prop :=
  ∃ u, expand code s = .next u ∧ exec i s = .next { u with low := low, bit := bit }

/-- From `s` to `t` nothing but OUT and PREV changed; the last `popped` bytes of OUT went, `bs` came after the rest, PREV
is `prev`, and OUT stays in its canonical form. -/
def Rewrites (s t : State) (popped : Nat) (bs : List Byte) (prev : Code) : Prop :=
  t = { s with out := t.out, prev := prev } ∧
  t.outBytes = s.outBytes.take (s.olen - popped) ++ bs ∧
  (Memory.wf s.out → Memory.wf t.out)

/-- The shape of 42_expander_active R101 to R104: selected by `c` for any PREV, appends `bs`, pops nothing, clears PREV. -/
def PrefixRule (i : Instr) (c : Code) (bs : List Byte) : Prop :=
  (∀ prev, decode (.token .active prev) c = i) ∧ ∀ s, ∃ t, exec i s = .next t ∧ Rewrites s t 0 bs 0

/-- The shape of 42_expander_active R105 to R113: selected by `c` when PREV = 0x21 and by no other PREV, pops one byte,
appends `bs`, clears PREV. -/
def PairRule (i : Instr) (c : Code) (bs : List Byte) : Prop :=
  decode (.token .active 0x21) c = i ∧
  (∀ prev, prev ≠ 0x21 → decode (.token .active prev) c = .bLit c) ∧
  ∀ s, s.out ≠ [] → ∃ t, exec i s = .next t ∧ Rewrites s t 1 bs 0 ∧ t.olen = s.olen - 1 + bs.length

/-- Where an expander operation stores and what: the first address, computed from OLEN as `append` and `pop` compute it,
and the bytes (41_expander_dormant R94, 42_expander_active R119). An unpacker operation stores nothing of its own. -/
def storedAt (s : State) : Instr → Nat × List Byte
  | .unp0 _ _ => (s.olen, [])
  | .unp1 _ _ => (s.olen, [])
  | .unp2 _ _ => (s.olen, [])
  | .unp3 _ _ => (s.olen, [])
  | .unp4 _ _ => (s.olen, [])
  | .unp5 _ _ => (s.olen, [])
  | .unp6 _ _ => (s.olen, [])
  | .aPass c => (s.olen, [c])
  | .bPfxGt => (s.olen, strDriver)
  | .bPfxBar => (s.olen, strIokit)
  | .bPfxDlr => (s.olen, strSecurity)
  | .bPfxAt => (s.olen, strApplePrefix)
  | .bPairA => (s.olen - 1, strApple)
  | .bPairLowerA => (s.olen - 1, strAction)
  | .bPairB => (s.olen - 1, strBluetooth)
  | .bPairC => (s.olen - 1, strController)
  | .bPairF => (s.olen - 1, strFamily)
  | .bPairI => (s.olen - 1, strIntel)
  | .bPairP => (s.olen - 1, strProfile)
  | .bPairS => (s.olen - 1, strStorage)
  | .bPairU => (s.olen - 1, strAppleUsb)
  | .bLit c => (s.olen, [c])

/-- A START is the next command (alone or with a STEP). -/
def startNext (s : State) : Bool :=
  match s.host with
  | .start _ :: _ => true
  | .startWithStep _ :: _ => true
  | _ => false

end Sys2Proof.Machine
end

