-- ==== Sys2Proof/WellFormed.lean ====
section
/-! DEFINITION. Which instructions are well formed, and in which context an instruction stands. The widths of the
packed fields are in their types; the one check on an operand is that B.LIT's code is no single-character trigger
(42_expander_active R118). -/

namespace Sys2Proof

/-- B.LIT is never selected for a code of class PFX (R118: "c is not one of 0x3E, 0x7C, 0x24, 0x40"). -/
def Instr.wellFormed : Instr → Bool
  | .unp0 _ _ => true
  | .unp1 _ _ => true
  | .unp2 _ _ => true
  | .unp3 _ _ => true
  | .unp4 _ _ => true
  | .unp5 _ _ => true
  | .unp6 _ _ => true
  | .aPass _ => true
  | .bPfxGt => true
  | .bPfxBar => true
  | .bPfxDlr => true
  | .bPfxAt => true
  | .bPairA => true
  | .bPairLowerA => true
  | .bPairB => true
  | .bPairC => true
  | .bPairF => true
  | .bPairI => true
  | .bPairP => true
  | .bPairS => true
  | .bPairU => true
  | .bLit c => !isPfx c

/-- The context is a packed byte at phase `k`. -/
def Context.isPacked (k : Fin 7) : Context → Bool
  | .packed j => j == k
  | .token _ _ => false

/-- The context is the token layer with ACT = 0. -/
def Context.isDormant : Context → Bool
  | .packed _ => false
  | .token act _ => act == .dormant

/-- The context is the token layer with ACT = 1. -/
def Context.isActive : Context → Bool
  | .packed _ => false
  | .token act _ => act == .active

/-- The context is the token layer with ACT = 1 and PREV = 0x21. -/
def Context.isArmed : Context → Bool
  | .packed _ => false
  | .token act prev => act == .active && prev == codeSentinel

/-- The state condition of the operation's row (R65: BIT for an unpacker row, ACT and PREV for an expander row, and
for B.LIT that no row of a lower priority number applies). -/
def Instr.fits : Instr → Context → Bool
  | .unp0 _ _, ctx => ctx.isPacked 0
  | .unp1 _ _, ctx => ctx.isPacked 1
  | .unp2 _ _, ctx => ctx.isPacked 2
  | .unp3 _ _, ctx => ctx.isPacked 3
  | .unp4 _ _, ctx => ctx.isPacked 4
  | .unp5 _ _, ctx => ctx.isPacked 5
  | .unp6 _ _, ctx => ctx.isPacked 6
  | .aPass _, ctx => ctx.isDormant
  | .bPfxGt, ctx => ctx.isActive
  | .bPfxBar, ctx => ctx.isActive
  | .bPfxDlr, ctx => ctx.isActive
  | .bPfxAt, ctx => ctx.isActive
  | .bPairA, ctx => ctx.isArmed
  | .bPairLowerA, ctx => ctx.isArmed
  | .bPairB, ctx => ctx.isArmed
  | .bPairC, ctx => ctx.isArmed
  | .bPairF, ctx => ctx.isArmed
  | .bPairI, ctx => ctx.isArmed
  | .bPairP, ctx => ctx.isArmed
  | .bPairS, ctx => ctx.isArmed
  | .bPairU, ctx => ctx.isArmed
  | .bLit c, ctx => ctx.isActive && !(ctx.isArmed && isSec c)

end Sys2Proof
end

