-- ==== Sys2Proof/Certificates/Slice0/Obligations.lean ====
section
/-! DEFINITION. The statements for the provers. Each docstring names the rules of spec/ it formalises. -/

open Sys2Proof Sys2Proof.Machine

/-! ### Reset, commands, one step -/

/-- 10_state R25: power-on reset and START put every register at 0, OUT empty; IDLE and RUN. HOLD and MATCH of the allowed
variants reset to invalid and 0. -/
def Obligations.ResetValues : Prop :=
  (State.reset.low = 0 ∧ State.reset.bit = 0 ∧ State.reset.prev = 0 ∧ State.reset.act = .dormant ∧
    State.reset.outBytes = [] ∧ State.reset.olen = 0 ∧ State.reset.ipos = 0 ∧ State.reset.st = .idle) ∧
  (∀ s buffer rest, s.host = .start buffer :: rest → ∃ t, step s = .next t ∧
    t.low = 0 ∧ t.bit = 0 ∧ t.prev = 0 ∧ t.act = .dormant ∧ t.outBytes = [] ∧ t.olen = 0 ∧ t.ipos = 0 ∧ t.st = .run) ∧
  Deferred.reset.hold = none ∧ matchAfter [] = 0

/-- 43_decoder R131: from any state START gives the reset registers, RUN and the buffer as IN. The second clause is a
choice: a START given with a STEP does just the same, no byte consumed, "by this spec's choice" (60_exceptions R153,
92_eei_decisions D16); that the pair is one command is the model's own form (log 19). -/
def Obligations.StartBeginsADecode : Prop :=
  ∀ s buffer rest, s.host = .start buffer :: rest ∨ s.host = .startWithStep buffer :: rest →
    step s = .next
      { low := 0, bit := 0, prev := 0, act := .dormant, out := [], ipos := 0, st := .run,
        input := Memory.ofBytes buffer, host := rest } ∧
    Memory.bytes (Memory.ofBytes buffer) = buffer ∧ Memory.wf (Memory.ofBytes buffer)

/-- 43_decoder R132: a STEP with ST = RUN and IPOS < N reads IN[IPOS], advances IPOS and runs the operation UNP<BIT> on
the byte. 60_exceptions R162: with no command the block holds its state. The code driven on the expander's own interface
(log 5, the model's own input) runs the one operation it selects. -/
def Obligations.StepRunsTheDecodedInstruction : Prop :=
  (∀ s rest, s.host = .step :: rest → s.st = .run → Memory.wf s.input → s.ipos < s.n →
    ∃ v, (Memory.bytes s.input)[s.ipos]? = some v ∧
      step s = exec (decode (.packed s.bit) v) { s with ipos := s.ipos + 1, host := rest }) ∧
  (∀ s c rest, s.host = .drive c :: rest → s.st = .run →
    step s = exec (decode (.token s.act s.prev) c) { s with host := rest }) ∧
  (∀ s, s.host = [] → step s = .next s)

/-- 43_decoder R133: FINISH with ST = RUN and IPOS = N sets ST to DONE and changes nothing else; the host may then read
OUT; with N = 0 it is enabled right after START and OUT is empty; in the deferred form it flushes HOLD. -/
def Obligations.FinishEndsTheDecode : Prop :=
  (∀ s rest, s.host = .finish :: rest → s.st = .run → s.ipos = s.n →
    step s = .next { s with st := .done, host := rest } ∧
    (observe { s with st := .done, host := rest }).result = some s.outBytes) ∧
  (∀ s rest, s.host = .start [] :: .finish :: rest → ∃ u t, step s = .next u ∧ step u = .next t ∧
    t.st = .done ∧ t.outBytes = [] ∧ t.host = rest) ∧
  (∀ d : Deferred, ∀ h, d.hold = some h → Memory.bytes d.finish.out = Memory.bytes d.out ++ [h] ∧ d.finish.hold = none) ∧
  (∀ d : Deferred, d.hold = none → d.finish = d)

/-- 43_decoder R135: STEP with ST not RUN, STEP with IPOS = N, FINISH with IPOS < N and FINISH with ST not RUN have no
transition; each is refused under its name. -/
def Obligations.CommandsOutsideTheirConditionAreRefused : Prop :=
  (∀ s rest, s.host = .step :: rest → s.st ≠ .run → step s = .refused .stepNotRunning) ∧
  (∀ s rest, s.host = .step :: rest → s.st = .run → Memory.wf s.input → s.ipos = s.n → step s = .refused .stepPastEnd) ∧
  (∀ s rest, s.host = .finish :: rest → s.st = .run → s.ipos < s.n → step s = .refused .finishBeforeEnd) ∧
  (∀ s rest, s.host = .finish :: rest → s.st ≠ .run → step s = .refused .finishNotRunning)

/-! ### Encodings -/

/-- 30_encoding R51: at phase k the payload is `v[6-k:0]` and the carry-out is `v[7:7-k]`, read as unsigned numbers. -/
def Obligations.FieldsOfAPackedByte : Prop :=
  ∀ v : Byte,
    (∃ p c, decode (.packed 0) v = .unp0 p c ∧ p.toNat = v.toNat % 128 ∧ c.toNat = v.toNat / 128) ∧
    (∃ p c, decode (.packed 1) v = .unp1 p c ∧ p.toNat = v.toNat % 64 ∧ c.toNat = v.toNat / 64) ∧
    (∃ p c, decode (.packed 2) v = .unp2 p c ∧ p.toNat = v.toNat % 32 ∧ c.toNat = v.toNat / 32) ∧
    (∃ p c, decode (.packed 3) v = .unp3 p c ∧ p.toNat = v.toNat % 16 ∧ c.toNat = v.toNat / 16) ∧
    (∃ p c, decode (.packed 4) v = .unp4 p c ∧ p.toNat = v.toNat % 8 ∧ c.toNat = v.toNat / 8) ∧
    (∃ p c, decode (.packed 5) v = .unp5 p c ∧ p.toNat = v.toNat % 4 ∧ c.toNat = v.toNat / 4) ∧
    (∃ p c, decode (.packed 6) v = .unp6 p c ∧ p.toNat = v.toNat % 2 ∧ c.toNat = v.toNat / 2)

/-- 30_encoding R56: the operation an incoming code selects, the tests in the rule's order. -/
def Obligations.SelectionOfTheExpanderOperation : Prop :=
  ∀ (act : Mode) (prev c : Code), decode (.token act prev) c =
    if act = .dormant then .aPass c
    else if c = 0x3E then .bPfxGt
    else if c = 0x7C then .bPfxBar
    else if c = 0x24 then .bPfxDlr
    else if c = 0x40 then .bPfxAt
    else if prev = 0x21 ∧ c = 0x41 then .bPairA
    else if prev = 0x21 ∧ c = 0x61 then .bPairLowerA
    else if prev = 0x21 ∧ c = 0x42 then .bPairB
    else if prev = 0x21 ∧ c = 0x43 then .bPairC
    else if prev = 0x21 ∧ c = 0x46 then .bPairF
    else if prev = 0x21 ∧ c = 0x49 then .bPairI
    else if prev = 0x21 ∧ c = 0x50 then .bPairP
    else if prev = 0x21 ∧ c = 0x53 then .bPairS
    else if prev = 0x21 ∧ c = 0x55 then .bPairU
    else .bLit c

/-- 30_encoding R65: in every state the first row by priority that applies exists, is one, and is the operation the
decoder gives. -/
def Obligations.OpcodeTableSelectsTheDecodedOperation : Prop :=
  ∀ (act : Mode) (prev c : Code) (op : TokenOp), tableSelects act prev c op ↔ op.toInstr = decode (.token act prev) c

/-- Decoding the byte of a well-formed instruction in a context its row stands in gives the instruction back, every
operand at every value (30_encoding R51, R56, R58). -/
def Obligations.DecodeEncode : Prop :=
  ∀ (i : Instr) (ctx : Context), i.wellFormed = true → i.fits ctx = true → decode ctx (encode i) = i

/-- Every byte in every context decodes to a well-formed instruction whose row stands there, and no bit of the byte is
lost (30_encoding R61: no encoding is illegal or reserved). -/
def Obligations.EncodeDecode : Prop :=
  ∀ (ctx : Context) (b : Byte),
    encode (decode ctx b) = b ∧ (decode ctx b).wellFormed = true ∧ (decode ctx b).fits ctx = true

/-- Words written out from the encodings of 30_encoding R51, R58 and the examples of 40_unpacker R73 to R79 (byte B5, that
is 10110101). -/
def Obligations.WordsOfTheSpecDecode : Prop :=
  decode (.packed 0) 0xB5 = .unp0 0b0110101 0b1 ∧
  decode (.packed 3) 0xB5 = .unp3 0b0101 0b1011 ∧
  decode (.packed 6) 0xB5 = .unp6 0b1 0b1011010 ∧
  decode (.token .dormant 0) 0b0111110 = .aPass 0x3E ∧
  decode (.token .active 0) 0b0111110 = .bPfxGt ∧
  decode (.token .active 0x21) 0b1000001 = .bPairA ∧
  decode (.token .active 0) 0b1000001 = .bLit 0x41

/-- The table word of a row, put where the next step takes its code from, is run by the next step, on a state that keeps
the invariant (the model's own choice, log 10). -/
def Obligations.FetchWordIsRunByTheNextStep : Prop :=
  ∀ (s : State) (nbits w : Nat) (i : Instr), decodeTableWord nbits w = some i →
    step (s.withFetchWord nbits w) = exec i ((s.withFetchWord nbits w).setHost s.host) ∧
    (RunInv s → RunInv (s.withFetchWord nbits w))

/-! ### The unpacker -/

/-- 40_unpacker R73 to R78: what UNP0 to UNP5 emit and leave in LOW and BIT, for every byte. UNP0 has LOW = 0 (10_state
R19), the state in which R73 states it. -/
def Obligations.UnpackOneCode : Prop :=
  ∀ (s : State) (v : Byte), PopSafe s →
    (s.low = 0 →
      EmitsOne s (.unp0 (v.extractLsb' 0 7) (v.extractLsb' 7 1)) (v &&& 0x7F) ((v >>> 7).setWidth 7) 1) ∧
    EmitsOne s (.unp1 (v.extractLsb' 0 6) (v.extractLsb' 6 2))
      (((v &&& 0x3F) <<< 1) ||| s.low.setWidth 8) ((v >>> 6).setWidth 7) 2 ∧
    EmitsOne s (.unp2 (v.extractLsb' 0 5) (v.extractLsb' 5 3))
      (((v &&& 0x1F) <<< 2) ||| s.low.setWidth 8) ((v >>> 5).setWidth 7) 3 ∧
    EmitsOne s (.unp3 (v.extractLsb' 0 4) (v.extractLsb' 4 4))
      (((v &&& 0x0F) <<< 3) ||| s.low.setWidth 8) ((v >>> 4).setWidth 7) 4 ∧
    EmitsOne s (.unp4 (v.extractLsb' 0 3) (v.extractLsb' 3 5))
      (((v &&& 0x07) <<< 4) ||| s.low.setWidth 8) ((v >>> 3).setWidth 7) 5 ∧
    EmitsOne s (.unp5 (v.extractLsb' 0 2) (v.extractLsb' 2 6))
      (((v &&& 0x03) <<< 5) ||| s.low.setWidth 8) ((v >>> 2).setWidth 7) 6

/-- 40_unpacker R79: UNP6 emits two codes, the expander finishing with the first before the second, and clears LOW and
BIT. -/
def Obligations.UnpackTwoCodes : Prop :=
  ∀ (s : State) (v : Byte), PopSafe s →
    ∃ u w, expand (((v &&& 0x01) <<< 6) ||| s.low.setWidth 8) s = .next u ∧ expand (v >>> 1) u = .next w ∧
      exec (.unp6 (v.extractLsb' 0 1) (v.extractLsb' 1 7)) s = .next { w with low := 0, bit := 0 }

/-- 40_unpacker R71: the seven operations are the four-step algorithm, for every byte and every state, a state where the
expander stops included. -/
def Obligations.UnpackStepIsTheAlgorithm : Prop :=
  ∀ (s : State) (v : Byte),
    exec (decode (.packed s.bit) v) s =
      andThen (expand (((v &&& ((0x7F : Byte) >>> s.bit.val)) <<< s.bit.val) ||| s.low.setWidth 8) s) fun u =>
        if s.bit = 6 then
          andThen (expand (v >>> (7 - s.bit.val)) u) fun w => .next { w with low := 0, bit := 0 }
        else .next { u with low := (v >>> (7 - s.bit.val)).setWidth 7, bit := s.bit + 1 }

/-- 40_unpacker R72: every emitted code is in 0 to 127; the first one of phase k is `{v[6-k:0], LOW[k-1:0]}`, the second
one of phase 6 is `v >> 1`. -/
def Obligations.EmittedCodesAreSevenBits : Prop :=
  (∀ (k : Fin 7) (v : Byte) (low : BitVec 7), low.toNat < 2 ^ k.val →
    (((v &&& ((0x7F : Byte) >>> k.val)) <<< k.val) ||| low.setWidth 8).toNat
        = v.toNat % 2 ^ (7 - k.val) * 2 ^ k.val + low.toNat ∧
    v.toNat % 2 ^ (7 - k.val) * 2 ^ k.val + low.toNat < 128) ∧
  (∀ v : Byte, (v >>> 1).toNat < 128) ∧
  (∀ bs : List Byte, ∀ c ∈ unpack bs, c.toNat < 128)

/-- 40_unpacker R82: N bytes give `N + floor(N/7)` codes, `8 * (len/7)` where 7 divides the length. -/
def Obligations.CountLaw : Prop :=
  ∀ bs : List Byte, (unpack bs).length = bs.length + bs.length / 7 ∧
    (bs.length % 7 = 0 → (unpack bs).length = 8 * (bs.length / 7))

/-- 20_memory R36: each complete group yields 8 codes, returns the unpacker to LOW = 0 and BIT = 0, and its codes depend
on its seven bytes only; R35: they are `(G >> (7*j)) & 0x7F` of its 56-bit number. -/
def Obligations.GroupsAreIndependent : Prop :=
  ∀ before group after : List Byte, before.length % 7 = 0 → group.length = 7 →
    unpackerAfter 0 0 (before ++ group) = (0, 0) ∧
    ((unpack (before ++ group ++ after)).drop (8 * (before.length / 7))).take 8
      = (List.range 8).map (streamCode group)

/-- 20_memory R35 and R38: for a buffer of any length, the codes are the consecutive seven-bit pieces of the stream of its
bits, least significant first, as many as `N + floor(N/7)`; what is left over is never emitted. -/
def Obligations.CodesAreTheBitStream : Prop :=
  ∀ bs : List Byte, unpack bs = (List.range (bs.length + bs.length / 7)).map (streamCode bs)

/-- 40_unpacker R84: a second buffer without a reset continues the phase of the first; only where the first length is a
multiple of 7 is that the same as unpacking the two apart. 43_decoder R142: the expander too goes on from chunk to chunk. -/
def Obligations.ChunksContinueThePhase : Prop :=
  (∀ a b : List Byte, unpack (a ++ b) = unpack a ++ unpackFrom (unpackerAfter 0 0 a).1 (unpackerAfter 0 0 a).2 b) ∧
  (∀ a b : List Byte, a.length % 7 = 0 → unpack (a ++ b) = unpack a ++ unpack b) ∧
  (∀ (a b : List Code) (s : State), expandAll (a ++ b) s = andThen (expandAll a s) (expandAll b)) ∧
  (∃ a b : List Byte, unpack (a ++ b) ≠ unpack a ++ unpack b)

/-- 40_unpacker R86 with the packer of 95_test_vectors section 4: unpacking a packed sequence gives it back where its
length modulo 8 is not 7, and one extra code 0x00 where it is. -/
def Obligations.UnpackOfPack : Prop :=
  ∀ cs : List Code, (∀ c ∈ cs, c.toNat < 128) →
    unpack (pack cs) = if cs.length % 8 = 7 then cs ++ [0] else cs

/-! ### The expander -/

/-- 41_expander_dormant R91: A.PASS is selected for every code when dormant, appends it, sets ACT where OUT then ends with
"loaded kext", and writes nothing else. -/
def Obligations.DormantPassesEveryCode : Prop :=
  ∀ c : Code, (∀ prev, decode (.token .dormant prev) c = .aPass c) ∧
    ∀ s : State, exec (.aPass c) s = .next
      { s with
        out := Memory.append s.out c
        act := if [0x6C, 0x6F, 0x61, 0x64, 0x65, 0x64, 0x20, 0x6B, 0x65, 0x78, 0x74] <:+ s.outBytes ++ [c] then .active
          else s.act }

/-- 42_expander_active R101 to R104: the four prefix expansions, with the bytes each rule lists. -/
def Obligations.PrefixExpansions : Prop :=
  PrefixRule .bPfxGt 0x3E
    [0x63, 0x6F, 0x6D, 0x2E, 0x61, 0x70, 0x70, 0x6C, 0x65, 0x2E, 0x64, 0x72, 0x69, 0x76, 0x65, 0x72, 0x2E] ∧
  PrefixRule .bPfxBar 0x7C
    [0x63, 0x6F, 0x6D, 0x2E, 0x61, 0x70, 0x70, 0x6C, 0x65, 0x2E, 0x69, 0x6F, 0x6B, 0x69, 0x74, 0x2E] ∧
  PrefixRule .bPfxDlr 0x24
    [0x63, 0x6F, 0x6D, 0x2E, 0x61, 0x70, 0x70, 0x6C, 0x65, 0x2E, 0x73, 0x65, 0x63, 0x75, 0x72, 0x69, 0x74, 0x79, 0x2E] ∧
  PrefixRule .bPfxAt 0x40 [0x63, 0x6F, 0x6D, 0x2E, 0x61, 0x70, 0x70, 0x6C, 0x65, 0x2E]

/-- 42_expander_active R105 to R113: the nine pair expansions, with the bytes each rule lists. (R113's example gives OLEN
12 to 20 where its own net change +7 gives 19: log 13.) -/
def Obligations.PairExpansions : Prop :=
  PairRule .bPairA 0x41 [0x41, 0x70, 0x70, 0x6C, 0x65] ∧
  PairRule .bPairLowerA 0x61 [0x41, 0x63, 0x74, 0x69, 0x6F, 0x6E] ∧
  PairRule .bPairB 0x42 [0x42, 0x6C, 0x75, 0x65, 0x74, 0x6F, 0x6F, 0x74, 0x68] ∧
  PairRule .bPairC 0x43 [0x43, 0x6F, 0x6E, 0x74, 0x72, 0x6F, 0x6C, 0x6C, 0x65, 0x72] ∧
  PairRule .bPairF 0x46 [0x46, 0x61, 0x6D, 0x69, 0x6C, 0x79] ∧
  PairRule .bPairI 0x49 [0x49, 0x6E, 0x74, 0x65, 0x6C] ∧
  PairRule .bPairP 0x50 [0x50, 0x72, 0x6F, 0x66, 0x69, 0x6C, 0x65] ∧
  PairRule .bPairS 0x53 [0x53, 0x74, 0x6F, 0x72, 0x61, 0x67, 0x65] ∧
  PairRule .bPairU 0x55 [0x41, 0x70, 0x70, 0x6C, 0x65, 0x55, 0x53, 0x42]

/-- The form of a pair operation the model stops on (log 6): with OUT empty, which no run reaches, `pop` has no meaning
(20_memory R33) and each of the nine is refused by name. -/
def Obligations.PairOperationsNeedAByteToPop : Prop :=
  ∀ s : State, s.out = [] →
    ∀ i ∈ [Instr.bPairA, .bPairLowerA, .bPairB, .bPairC, .bPairF, .bPairI, .bPairP, .bPairS, .bPairU],
      exec i s = .refused .popOfEmptyOut

/-- 42_expander_active R118: B.LIT is selected in State B for a code that is no single-character trigger where PREV is not
0x21 or the code is no pair second character; it appends the code and records it in PREV. -/
def Obligations.LiteralIsAppendedAndRemembered : Prop :=
  (∀ prev c : Code, c ∉ ([0x3E, 0x7C, 0x24, 0x40] : List Code) →
    (prev ≠ 0x21 ∨ c ∉ ([0x41, 0x61, 0x42, 0x43, 0x46, 0x49, 0x50, 0x53, 0x55] : List Code)) →
    decode (.token .active prev) c = .bLit c) ∧
  ∀ (c : Code) (s : State), ∃ t, exec (.bLit c) s = .next t ∧ Rewrites s t 0 [c] c

/-- 42_expander_active R115: the single-character triggers expand identically whatever PREV is; a `!` before one stays in
OUT, and PREV is 0 afterwards. -/
def Obligations.TriggersIgnoreTheLookback : Prop :=
  ∀ (s : State) (c : Code), s.act = .active → c ∈ ([0x3E, 0x7C, 0x24, 0x40] : List Code) →
    (∀ prev, expand c { s with prev := prev } = expand c s) ∧
    ∃ t, expand c s = .next t ∧ t.prev = 0 ∧ s.outBytes <+: t.outBytes

/-- 42_expander_active R116: no expansion string holds a sentinel or a single-character trigger, and PREV is 0 after every
expansion. -/
def Obligations.ExpansionsAreNotReadAgain : Prop :=
  (∀ (c : Code) (bs : List Byte), dict1 c = some bs ∨ dict2 c = some bs →
    ∀ b ∈ bs, b ∉ ([0x21, 0x3E, 0x7C, 0x24, 0x40] : List Byte)) ∧
  (∀ (s t : State) (c : Code), s.act = .active →
    (c ∈ ([0x3E, 0x7C, 0x24, 0x40] : List Code) ∨
      (s.prev = 0x21 ∧ c ∈ ([0x41, 0x61, 0x42, 0x43, 0x46, 0x49, 0x50, 0x53, 0x55] : List Code))) →
    expand c s = .next t → t.prev = 0)

/-- 42_expander_active R117: in State B a second trigger phrase has no effect; its codes are literals. -/
def Obligations.SecondTriggerPhraseIsLiteral : Prop :=
  ∀ s : State, s.act = .active → ∃ t, expandAll trigger s = .next t ∧
    t = { s with out := Memory.appendStr s.out trigger, prev := 0x74 }

/-- 10_state R14, 41_expander_dormant R92: the latch is one-way; the expander sets it exactly where OUT then ends with the
trigger phrase; no step but START clears it. -/
def Obligations.LatchIsOneWay : Prop :=
  (∀ (c : Code) (s t : State), expand c s = .next t →
    (s.act = .active → t.act = .active) ∧ (s.act = .dormant → (t.act = .active ↔ trigger <:+ t.outBytes))) ∧
  (∀ s t : State, step s = .next t → startNext s = false → s.act = .active → t.act = .active)

/-! ### Frames -/

/-- 41_expander_dormant R90, 40_unpacker R70: no operation writes IPOS, ST, IN or what the host will give; an expander
operation leaves LOW and BIT too, A.PASS leaves PREV, every other one leaves ACT. -/
def Obligations.OperationsLeaveTheRestAlone : Prop :=
  ∀ (i : Instr) (s t : State), exec i s = .next t →
    t.ipos = s.ipos ∧ t.st = s.st ∧ t.input = s.input ∧ t.host = s.host ∧
    (isExpander i = true → t.low = s.low ∧ t.bit = s.bit) ∧
    (∀ c, i = .aPass c → t.prev = s.prev) ∧
    (isExpander i = true → (∀ c, i ≠ .aPass c) → t.act = s.act) ∧
    (∀ a, Memory.read t.input a = Memory.read s.input a)

/-- 42_expander_active R119, 41_expander_dormant R94: an expander operation stores its bytes at consecutive addresses from
OLEN on, a pair operation from OLEN - 1 on; OUT then ends there, and every other address reads as before. -/
def Obligations.ExpanderStoresAtTheTail : Prop :=
  ∀ (i : Instr) (s t : State), isExpander i = true → Memory.wf s.out → exec i s = .next t →
    (∀ k, k < (storedAt s i).2.length → Memory.read t.out ((storedAt s i).1 + k) = (storedAt s i).2[k]?) ∧
    (∀ a, a < (storedAt s i).1 ∨ (storedAt s i).1 + (storedAt s i).2.length ≤ a →
      Memory.read t.out a = Memory.read s.out a) ∧
    t.olen = (storedAt s i).1 + (storedAt s i).2.length

/-- 10_state R17 for an unpacker operation too: OLEN grows, and every byte below OLEN - 1 reads as before. -/
def Obligations.NoOperationTouchesBytesBelowTheLast : Prop :=
  ∀ (i : Instr) (s t : State), Memory.wf s.out → exec i s = .next t →
    s.olen < t.olen ∧ Memory.wf t.out ∧ ∀ a, a + 1 < s.olen → Memory.read t.out a = Memory.read s.out a

/-- 10_state R17: how much OLEN grows at each expander operation. -/
def Obligations.OlenGrowsByTheStatedAmounts : Prop :=
  ∀ (s t : State) (i : Instr), exec i s = .next t →
    ((∃ c, i = .aPass c ∨ i = .bLit c) → t.olen = s.olen + 1) ∧
    (i = .bPfxGt → t.olen = s.olen + 17) ∧ (i = .bPfxBar → t.olen = s.olen + 16) ∧
    (i = .bPfxDlr → t.olen = s.olen + 19) ∧ (i = .bPfxAt → t.olen = s.olen + 10) ∧
    (i ∈ [Instr.bPairA, .bPairLowerA, .bPairB, .bPairC, .bPairF, .bPairI, .bPairP, .bPairS, .bPairU] →
      s.olen + 4 ≤ t.olen ∧ t.olen ≤ s.olen + 9)

/-- 20_memory R39: one STEP of the block lengthens OUT by 1 to 38 bytes. -/
def Obligations.OneStepWritesAtMostThirtyEightBytes : Prop :=
  ∀ (s t : State) (rest : List Command), s.host = .step :: rest → step s = .next t →
    s.olen + 1 ≤ t.olen ∧ t.olen ≤ s.olen + 38

/-- 43_decoder R134, 41_expander_dormant R90: the expander sees nothing of LOW, BIT, IN, IPOS, ST or the host. -/
def Obligations.ExpanderDoesNotSeeTheUnpacker : Prop :=
  ∀ (c : Code) (s : State) (low : BitVec 7) (bit : Fin 7) (ipos : Nat) (st : RunStatus) (input : Memory)
      (host : List Command),
    expand c { s with low := low, bit := bit, ipos := ipos, st := st, input := input, host := host } =
      andThen (expand c s) fun t =>
        .next { t with low := low, bit := bit, ipos := ipos, st := st, input := input, host := host }

/-- 43_decoder R134: "the state after the first m bytes does not depend on later bytes". Two buffers with the same byte at
IPOS give the same step. -/
def Obligations.StepDependsOnTheByteAtIposOnly : Prop :=
  ∀ (s : State) (other : Memory) (rest : List Command) (v : Byte), s.host = .step :: rest →
    Memory.read s.input s.ipos = some v → Memory.read other s.ipos = some v →
    step { s with input := other } = andThen (step s) fun t => .next { t with input := other }

/-- 10_state R15, 20_memory R31: no step but START writes IN; IPOS goes up by one at a STEP and never otherwise. -/
def Obligations.OnlyAStepMovesTheInputPosition : Prop :=
  ∀ s t : State, step s = .next t → startNext s = false →
    t.input = s.input ∧ t.ipos = if s.host.head? = some .step then s.ipos + 1 else s.ipos

/-- 43_decoder R136, 70_reset_and_hazards R176: the host sees OUT as a result only at DONE, and a step other than START
leaves all bytes of OUT but the last one as they are. -/
def Obligations.OutIsProvisionalInItsLastByteOnly : Prop :=
  (∀ s : State, (observe s).st = s.st ∧ (observe s).olen = s.olen ∧
    ((observe s).result ≠ none ↔ s.st = .done) ∧ (s.st = .done → (observe s).result = some s.outBytes)) ∧
  (∀ s t : State, Memory.wf s.out → step s = .next t → startNext s = false →
    ∀ a, a + 1 < s.olen → Memory.read t.out a = Memory.read s.out a)

/-! ### Invariants -/

/-- The invariants hold right after reset (with no command waiting, log 1). -/
def Obligations.InvariantsHoldAtReset : Prop := RunInv State.reset ∧ FoldInv State.reset

/-- 10_state R19 (a to c), R20, R15, R12, 42_expander_active R114: every step keeps the invariant. -/
def Obligations.EveryStepKeepsTheInvariant : Prop := ∀ s t : State, RunInv s → step s = .next t → RunInv t

/-- 43_decoder R134: in the composed block the state stays the fold of the bytes consumed so far. -/
def Obligations.EveryStepKeepsTheFold : Prop :=
  ∀ s t : State, RunInv s → FoldInv s → step s = .next t → FoldInv t

/-- 42_expander_active R114: PREV = 0x21 means OUT ends in the `!` a pair operation will pop, and OLEN is at least 12, so
the pop never underflows: the pair operation answers a next state and that byte is the one gone. -/
def Obligations.PairPopsTheSentinel : Prop :=
  ∀ s : State, RunInv s → s.prev = 0x21 →
    s.outBytes.getLast? = some 0x21 ∧ 12 ≤ s.olen ∧
    ∀ c ∈ ([0x41, 0x61, 0x42, 0x43, 0x46, 0x49, 0x50, 0x53, 0x55] : List Code),
      ∃ t bs, expand c s = .next t ∧ t.outBytes = s.outBytes.dropLast ++ bs ∧ dict2 c = some bs

/-- 10_state R16, R19 (d, e), R20 (a), 20_memory R48: while dormant OUT is the sequence of all codes received so far and
OLEN = EPOS; every code kept in PREV is below 128; OLEN never exceeds `19 * EPOS`, so a device whose OUT_CAP is at least
`19 * (N + floor(N/7))` never overflows, and IPOS fits any width that N fits. -/
def Obligations.CodesReceivedBoundTheOutput : Prop :=
  ∀ s : State, RunInv s → FoldInv s →
    (s.act = .dormant → s.outBytes = unpack ((Memory.bytes s.input).take s.ipos) ∧ s.olen = s.epos) ∧
    s.prev.toNat < 128 ∧
    s.olen ≤ Config.maxExp * s.epos ∧
    ∀ p : Config.Open, Config.maxExp * (s.n + s.n / Config.period) ≤ p.outCap → s.n < 2 ^ p.iposW →
      FitsCapacity p s ∧ s.ipos < 2 ^ p.iposW

/-- 43_decoder R141, 60_exceptions R150, R163: while ST = RUN exactly one of STEP and FINISH is enabled, and the enabled
one answers a next state whatever the byte. -/
def Obligations.ExactlyOneCommandIsEnabledWhileRunning : Prop :=
  ∀ s : State, RunInv s → s.st = .run →
    ((∃ t, step (s.setHost [.step]) = .next t) ↔ s.ipos < s.n) ∧
    ((∃ t, step (s.setHost [.finish]) = .next t) ↔ s.ipos = s.n) ∧
    (s.ipos < s.n ∨ s.ipos = s.n) ∧
    (∀ t, step (s.setHost [.step]) = .next t → t.st = .run ∧ t.ipos = s.ipos + 1 ∧ t.input = s.input)

/-! ### Whole decodes -/

/-- 43_decoder R134, R141: from any state, START with a buffer, N times STEP and FINISH run through, and OUT at DONE is
`expand_all(unpack(IN))`; LOW and BIT keep what the last byte left. -/
def Obligations.WholeDecodeIsExpandOfUnpack : Prop :=
  ∀ (s : State) (buffer : List Byte) (rest : List Command), s.host = decodeScript buffer ++ rest →
    ∃ t u, Reaches (buffer.length + 2) s t ∧ expandAll (unpack buffer) State.started = .next u ∧
      t.st = .done ∧ t.outBytes = u.outBytes ∧ t.prev = u.prev ∧ t.act = u.act ∧
      (t.low.toNat, t.bit.val) = unpackerAfter 0 0 buffer ∧ t.ipos = buffer.length ∧ t.host = rest ∧
      (observe t).result = some u.outBytes

/-- 41_expander_dormant R92: text in which the trigger phrase never occurs comes out as it is and leaves ACT 0. -/
def Obligations.DormantTextIsCopied : Prop :=
  ∀ cs : List Code, ¬ trigger <:+: cs →
    ∃ t, expandAll cs State.started = .next t ∧ t.outBytes = cs ∧ t.act = .dormant ∧ t.prev = 0

/-- 30_encoding R55, 41_expander_dormant R92, 90_conflicts C5: after the first trigger phrase the text comes out with its
forms of length 1 and 2 replaced, read from left to right; the lookback with retraction is that reading. -/
def Obligations.TextAfterTheTriggerIsReadAsForms : Prop :=
  ∀ before after : List Code, ¬ trigger <:+: (before ++ trigger.dropLast) →
    ∃ t, expandAll (before ++ trigger ++ after) State.started = .next t ∧
      t.outBytes = before ++ trigger ++ readForms after ∧ t.act = .active

/-! ### The allowed variants -/

/-- 41_expander_dormant R93: MATCH reaches 11 exactly where the tail comparison holds for the first time. -/
def Obligations.IncrementalMatcherIsExact : Prop :=
  ∀ (cs : List Code) (c : Code), ¬ trigger <:+: cs →
    matchAfter cs < Config.trigLen ∧ (matchAfter (cs ++ [c]) = Config.trigLen ↔ trigger <:+ cs ++ [c])

/-- 43_decoder R140: at every boundary between codes the deferred form holds back exactly the last literal, and after
FINISH its output is the architectural one; PREV = 0 does not mean that HOLD is empty. -/
def Obligations.DeferredFormIsEquivalent : Prop :=
  (∀ cs : List Code, ∃ t, expandAll cs State.started = .next t ∧
    ∀ d, d = cs.foldl (fun d c => Deferred.expand c d) Deferred.reset →
      d.act = t.act ∧
      (d.hold = none → t.outBytes = Memory.bytes d.out ∧ t.prev = 0) ∧
      (∀ h, d.hold = some h → t.outBytes = Memory.bytes d.out ++ [h] ∧ t.prev = h) ∧
      Memory.bytes d.finish.out = t.outBytes) ∧
  ∃ cs : List Code, ∃ t, expandAll cs State.started = .next t ∧ t.prev = 0 ∧
    (cs.foldl (fun d c => Deferred.expand c d) Deferred.reset).hold = some 0
end

