-- ==== Sys2Proof/Laws/Memory.lean ====
section
/-! SUPPORT. What each operation on a space does to its bytes, that it keeps the canonical form, and what reading an
address gives in that form. -/

namespace Sys2Proof.Machine.Memory

/-! ### Bytes -/

@[simp] theorem bytes_nil : bytes [] = [] := rfl

@[simp] theorem length_bytes (m : Memory) : (bytes m).length = m.length := by simp [bytes]

@[simp] theorem bytes_append (m : Memory) (b : Byte) : bytes (append m b) = bytes m ++ [b] := by
  simp [bytes, append]

@[simp] theorem length_append (m : Memory) (b : Byte) : (append m b).length = m.length + 1 := by simp [append]

theorem append_ne_nil (m : Memory) (b : Byte) : append m b ≠ [] := by simp [append]

@[simp] theorem appendStr_nil (m : Memory) : appendStr m [] = m := rfl

@[simp] theorem appendStr_cons (m : Memory) (b : Byte) (bs : List Byte) :
    appendStr m (b :: bs) = appendStr (append m b) bs := rfl

@[simp] theorem bytes_appendStr (m : Memory) (bs : List Byte) : bytes (appendStr m bs) = bytes m ++ bs := by
  induction bs generalizing m with
  | nil => simp
  | cons b bs ih => simp [ih]

@[simp] theorem length_appendStr (m : Memory) (bs : List Byte) : (appendStr m bs).length = m.length + bs.length := by
  rw [← length_bytes, bytes_appendStr, List.length_append, length_bytes]

@[simp] theorem bytes_ofBytes (bs : List Byte) : bytes (ofBytes bs) = bs := by simp [ofBytes]

@[simp] theorem length_ofBytes (bs : List Byte) : (ofBytes bs).length = bs.length := by simp [ofBytes]

@[simp] theorem bytes_pop (m : Memory) : bytes (pop m) = (bytes m).dropLast := by simp [bytes, pop, List.map_dropLast]

@[simp] theorem length_pop (m : Memory) : (pop m).length = m.length - 1 := by simp [pop]

@[simp] theorem size_eq_length (m : Memory) : size m = m.length := rfl

theorem bytes_eq_nil_iff (m : Memory) : bytes m = [] ↔ m = [] := by simp [bytes]

/-! ### The canonical form -/

theorem wf_nil : wf [] := rfl

theorem wf_append {m : Memory} (h : wf m) (b : Byte) : wf (append m b) := by
  simp only [wf] at *
  simp [append, h, List.range_succ]

theorem wf_appendStr {m : Memory} (h : wf m) (bs : List Byte) : wf (appendStr m bs) := by
  induction bs generalizing m with
  | nil => exact h
  | cons b bs ih => exact ih (wf_append h b)

theorem wf_ofBytes (bs : List Byte) : wf (ofBytes bs) := wf_appendStr wf_nil bs

theorem wf_pop {m : Memory} (h : wf m) : wf (pop m) := by
  simp only [wf] at *
  rw [pop, List.map_dropLast, h, List.length_dropLast]
  cases m with
  | nil => rfl
  | cons c cs => simp [List.range_succ]

/-- The addresses of the canonical form rise strictly. -/
theorem wf_addresses_rise {m : Memory} (h : wf m) : (m.map fun cell => cell.1).Pairwise (· < ·) := by
  rw [h]; exact List.pairwise_lt_range

/-- A space in canonical form is its bytes. -/
theorem wf_eq_zip {m : Memory} (h : wf m) : m = (List.range m.length).zip (bytes m) := by
  have h' : m = (m.map fun cell => cell.1).zip (m.map fun cell => cell.2) := by
    simp [List.zip_map']
  rw [wf] at h
  rw [h] at h'
  exact h'

/-- Spaces in canonical form with the same bytes are the same data. -/
theorem wf_ext {m m' : Memory} (h : wf m) (h' : wf m') (hb : bytes m = bytes m') : m = m' := by
  have hl : m.length = m'.length := by rw [← length_bytes m, ← length_bytes m', hb]
  rw [wf_eq_zip h, wf_eq_zip h', hl, hb]

theorem wf_eq_ofBytes {m : Memory} (h : wf m) : m = ofBytes (bytes m) :=
  wf_ext h (wf_ofBytes _) (bytes_ofBytes _).symm

/-! ### Reading -/

theorem read_append_of_ne (m : Memory) (b : Byte) {a : Nat} (h : a ≠ m.length) : read (append m b) a = read m a := by
  have : ¬ m.length = a := fun e => h e.symm
  simp [read, append, List.find?_append, this]

theorem wf_mem_lt {m : Memory} (h : wf m) {cell : Host.Cell} (hc : cell ∈ m) : cell.1 < m.length := by
  have : cell.1 ∈ m.map (fun cell => cell.1) := List.mem_map_of_mem hc
  rw [h] at this
  exact List.mem_range.1 this

/-- In canonical form the byte at an address is the byte of that index. -/
theorem read_eq_bytes {m : Memory} (h : wf m) (a : Nat) : read m a = (bytes m)[a]? := by
  induction m using List.reverseRecOn with
  | nil => simp [read]
  | append_singleton m cell ih =>
    have hm : wf m := by simpa [pop] using wf_pop h
    have hc : cell = (m.length, cell.2) := by
      have := congrArg List.getLast? h
      simp [List.range_succ] at this
      exact Prod.ext this rfl
    have hr : m ++ [cell] = append m cell.2 := by rw [append, ← hc]
    rw [hr, bytes_append]
    by_cases ha : a = m.length
    · subst ha
      have hn : m.find? (fun c => c.1 == m.length) = none := by
        rw [List.find?_eq_none]
        intro c hcm
        have := wf_mem_lt hm hcm
        simp; omega
      simp [read, append, List.find?_append, hn]
    · rw [read_append_of_ne m _ ha, ih hm]
      rcases Nat.lt_or_gt_of_ne ha with hlt | hgt
      · rw [List.getElem?_append_left (by simpa using hlt)]
      · rw [List.getElem?_eq_none (by simp; omega), List.getElem?_eq_none (by simp; omega)]

/-- In canonical form the addresses are those below the size (20_memory R31, R32). -/
theorem read_isSome_iff {m : Memory} (h : wf m) (a : Nat) : (read m a).isSome ↔ a < m.length := by
  rw [read_eq_bytes h]; simp

/-! ### The tail view -/

theorem tail_eq_some_iff (m : Memory) (bs : List Byte) : tail m bs.length = some bs ↔ bs <:+ bytes m := by
  unfold tail
  split
  · rename_i h
    simp only [Option.some.injEq]
    rw [List.suffix_iff_eq_drop, length_bytes]
    simp only [bytes, List.map_drop]
    exact eq_comm
  · rename_i h
    simp only [reduceCtorEq, false_iff]
    intro hs
    exact h (by simpa using hs.length_le)

end Sys2Proof.Machine.Memory
end

