-- ==== Sys2Proof/Laws/State.lean ====
section
/-! SUPPORT. One lemma per field per register write, so that no later proof unfolds a record update. -/

namespace Sys2Proof.Machine

/-! ### `setOut` -/

@[simp] theorem State.setOut_low (s : State) (m : Memory) : (s.setOut m).low = s.low := rfl
@[simp] theorem State.setOut_bit (s : State) (m : Memory) : (s.setOut m).bit = s.bit := rfl
@[simp] theorem State.setOut_prev (s : State) (m : Memory) : (s.setOut m).prev = s.prev := rfl
@[simp] theorem State.setOut_act (s : State) (m : Memory) : (s.setOut m).act = s.act := rfl
@[simp] theorem State.setOut_out (s : State) (m : Memory) : (s.setOut m).out = m := rfl
@[simp] theorem State.setOut_ipos (s : State) (m : Memory) : (s.setOut m).ipos = s.ipos := rfl
@[simp] theorem State.setOut_st (s : State) (m : Memory) : (s.setOut m).st = s.st := rfl
@[simp] theorem State.setOut_input (s : State) (m : Memory) : (s.setOut m).input = s.input := rfl
@[simp] theorem State.setOut_host (s : State) (m : Memory) : (s.setOut m).host = s.host := rfl

/-! ### `setPrev` -/

@[simp] theorem State.setPrev_low (s : State) (c : Code) : (s.setPrev c).low = s.low := rfl
@[simp] theorem State.setPrev_bit (s : State) (c : Code) : (s.setPrev c).bit = s.bit := rfl
@[simp] theorem State.setPrev_prev (s : State) (c : Code) : (s.setPrev c).prev = c := rfl
@[simp] theorem State.setPrev_act (s : State) (c : Code) : (s.setPrev c).act = s.act := rfl
@[simp] theorem State.setPrev_out (s : State) (c : Code) : (s.setPrev c).out = s.out := rfl
@[simp] theorem State.setPrev_ipos (s : State) (c : Code) : (s.setPrev c).ipos = s.ipos := rfl
@[simp] theorem State.setPrev_st (s : State) (c : Code) : (s.setPrev c).st = s.st := rfl
@[simp] theorem State.setPrev_input (s : State) (c : Code) : (s.setPrev c).input = s.input := rfl
@[simp] theorem State.setPrev_host (s : State) (c : Code) : (s.setPrev c).host = s.host := rfl

/-! ### `setAct` -/

@[simp] theorem State.setAct_low (s : State) (m : Mode) : (s.setAct m).low = s.low := rfl
@[simp] theorem State.setAct_bit (s : State) (m : Mode) : (s.setAct m).bit = s.bit := rfl
@[simp] theorem State.setAct_prev (s : State) (m : Mode) : (s.setAct m).prev = s.prev := rfl
@[simp] theorem State.setAct_act (s : State) (m : Mode) : (s.setAct m).act = m := rfl
@[simp] theorem State.setAct_out (s : State) (m : Mode) : (s.setAct m).out = s.out := rfl
@[simp] theorem State.setAct_ipos (s : State) (m : Mode) : (s.setAct m).ipos = s.ipos := rfl
@[simp] theorem State.setAct_st (s : State) (m : Mode) : (s.setAct m).st = s.st := rfl
@[simp] theorem State.setAct_input (s : State) (m : Mode) : (s.setAct m).input = s.input := rfl
@[simp] theorem State.setAct_host (s : State) (m : Mode) : (s.setAct m).host = s.host := rfl

/-! ### `setUnpacker` -/

@[simp] theorem State.setUnpacker_low (s : State) (l : BitVec 7) (b : Fin 7) : (s.setUnpacker l b).low = l := rfl
@[simp] theorem State.setUnpacker_bit (s : State) (l : BitVec 7) (b : Fin 7) : (s.setUnpacker l b).bit = b := rfl
@[simp] theorem State.setUnpacker_prev (s : State) (l : BitVec 7) (b : Fin 7) : (s.setUnpacker l b).prev = s.prev := rfl
@[simp] theorem State.setUnpacker_act (s : State) (l : BitVec 7) (b : Fin 7) : (s.setUnpacker l b).act = s.act := rfl
@[simp] theorem State.setUnpacker_out (s : State) (l : BitVec 7) (b : Fin 7) : (s.setUnpacker l b).out = s.out := rfl
@[simp] theorem State.setUnpacker_ipos (s : State) (l : BitVec 7) (b : Fin 7) : (s.setUnpacker l b).ipos = s.ipos := rfl
@[simp] theorem State.setUnpacker_st (s : State) (l : BitVec 7) (b : Fin 7) : (s.setUnpacker l b).st = s.st := rfl
@[simp] theorem State.setUnpacker_input (s : State) (l : BitVec 7) (b : Fin 7) : (s.setUnpacker l b).input = s.input := rfl
@[simp] theorem State.setUnpacker_host (s : State) (l : BitVec 7) (b : Fin 7) : (s.setUnpacker l b).host = s.host := rfl

/-! ### `advance` -/

@[simp] theorem State.advance_low (s : State) : (s.advance).low = s.low := rfl
@[simp] theorem State.advance_bit (s : State) : (s.advance).bit = s.bit := rfl
@[simp] theorem State.advance_prev (s : State) : (s.advance).prev = s.prev := rfl
@[simp] theorem State.advance_act (s : State) : (s.advance).act = s.act := rfl
@[simp] theorem State.advance_out (s : State) : (s.advance).out = s.out := rfl
@[simp] theorem State.advance_ipos (s : State) : (s.advance).ipos = s.ipos + 1 := rfl
@[simp] theorem State.advance_st (s : State) : (s.advance).st = s.st := rfl
@[simp] theorem State.advance_input (s : State) : (s.advance).input = s.input := rfl
@[simp] theorem State.advance_host (s : State) : (s.advance).host = s.host := rfl

/-! ### `setSt` -/

@[simp] theorem State.setSt_low (s : State) (r : RunStatus) : (s.setSt r).low = s.low := rfl
@[simp] theorem State.setSt_bit (s : State) (r : RunStatus) : (s.setSt r).bit = s.bit := rfl
@[simp] theorem State.setSt_prev (s : State) (r : RunStatus) : (s.setSt r).prev = s.prev := rfl
@[simp] theorem State.setSt_act (s : State) (r : RunStatus) : (s.setSt r).act = s.act := rfl
@[simp] theorem State.setSt_out (s : State) (r : RunStatus) : (s.setSt r).out = s.out := rfl
@[simp] theorem State.setSt_ipos (s : State) (r : RunStatus) : (s.setSt r).ipos = s.ipos := rfl
@[simp] theorem State.setSt_st (s : State) (r : RunStatus) : (s.setSt r).st = r := rfl
@[simp] theorem State.setSt_input (s : State) (r : RunStatus) : (s.setSt r).input = s.input := rfl
@[simp] theorem State.setSt_host (s : State) (r : RunStatus) : (s.setSt r).host = s.host := rfl

/-! ### `setHost` -/

@[simp] theorem State.setHost_low (s : State) (cs : List Command) : (s.setHost cs).low = s.low := rfl
@[simp] theorem State.setHost_bit (s : State) (cs : List Command) : (s.setHost cs).bit = s.bit := rfl
@[simp] theorem State.setHost_prev (s : State) (cs : List Command) : (s.setHost cs).prev = s.prev := rfl
@[simp] theorem State.setHost_act (s : State) (cs : List Command) : (s.setHost cs).act = s.act := rfl
@[simp] theorem State.setHost_out (s : State) (cs : List Command) : (s.setHost cs).out = s.out := rfl
@[simp] theorem State.setHost_ipos (s : State) (cs : List Command) : (s.setHost cs).ipos = s.ipos := rfl
@[simp] theorem State.setHost_st (s : State) (cs : List Command) : (s.setHost cs).st = s.st := rfl
@[simp] theorem State.setHost_input (s : State) (cs : List Command) : (s.setHost cs).input = s.input := rfl
@[simp] theorem State.setHost_host (s : State) (cs : List Command) : (s.setHost cs).host = cs := rfl

/-! ### The views of OUT -/

@[simp] theorem State.setOut_outBytes (s : State) (m : Memory) : (s.setOut m).outBytes = Memory.bytes m := rfl
@[simp] theorem State.setOut_olen (s : State) (m : Memory) : (s.setOut m).olen = m.length := rfl
@[simp] theorem State.setPrev_outBytes (s : State) (c : Code) : (s.setPrev c).outBytes = s.outBytes := rfl
@[simp] theorem State.setPrev_olen (s : State) (c : Code) : (s.setPrev c).olen = s.olen := rfl
@[simp] theorem State.setAct_outBytes (s : State) (m : Mode) : (s.setAct m).outBytes = s.outBytes := rfl
@[simp] theorem State.setAct_olen (s : State) (m : Mode) : (s.setAct m).olen = s.olen := rfl
@[simp] theorem State.setUnpacker_outBytes (s : State) (l : BitVec 7) (b : Fin 7) : (s.setUnpacker l b).outBytes = s.outBytes := rfl
@[simp] theorem State.setUnpacker_olen (s : State) (l : BitVec 7) (b : Fin 7) : (s.setUnpacker l b).olen = s.olen := rfl
@[simp] theorem State.advance_outBytes (s : State) : (s.advance).outBytes = s.outBytes := rfl
@[simp] theorem State.advance_olen (s : State) : (s.advance).olen = s.olen := rfl
@[simp] theorem State.setSt_outBytes (s : State) (r : RunStatus) : (s.setSt r).outBytes = s.outBytes := rfl
@[simp] theorem State.setSt_olen (s : State) (r : RunStatus) : (s.setSt r).olen = s.olen := rfl
@[simp] theorem State.setHost_outBytes (s : State) (cs : List Command) : (s.setHost cs).outBytes = s.outBytes := rfl
@[simp] theorem State.setHost_olen (s : State) (cs : List Command) : (s.setHost cs).olen = s.olen := rfl

/-- The bytes of OUT, in the two spellings. -/
theorem State.bytes_out (s : State) : Memory.bytes s.out = s.outBytes := rfl

/-- The length of OUT, in the two spellings. -/
theorem State.length_out (s : State) : s.out.length = s.olen := rfl

/-- N depends on IN alone. -/
theorem State.n_eq (s : State) : s.n = s.input.length := rfl

/-- OLEN is the number of bytes of OUT (10_state R17). -/
theorem State.olen_eq_length_outBytes (s : State) : s.olen = s.outBytes.length := by
  simp [State.olen, State.outBytes, Memory.size, Memory.bytes]

end Sys2Proof.Machine
end

