-- ==== Sys2Proof/Laws/Ops.lean ====
section
/-! SUPPORT. What each shared operation can do, said once. -/

namespace Sys2Proof.Machine

/-! ### Going on after a result -/

@[simp] theorem andThen_next (s : State) (f : State → Result) : andThen (.next s) f = f s := rfl

@[simp] theorem andThen_refused (r : Refusal) (f : State → Result) : andThen (.refused r) f = .refused r := rfl

theorem andThen_eq_next_iff (r : Result) (f : State → Result) (t : State) :
    andThen r f = .next t ↔ ∃ u, r = .next u ∧ f u = .next t := by
  cases r <;> simp [andThen]

theorem andThen_assoc (r : Result) (f g : State → Result) :
    andThen (andThen r f) g = andThen r fun s => andThen (f s) g := by
  cases r <;> rfl

@[simp] theorem andThen_pure (r : Result) : andThen r .next = r := by cases r <;> rfl

/-- There is no fault: a result is a next state or a refusal. -/
theorem result_cases (r : Result) : (∃ t, r = .next t) ∨ ∃ e, r = .refused e := by
  cases r with
  | next t => exact .inl ⟨t, rfl⟩
  | fault e => cases e
  | refused e => exact .inr ⟨e, rfl⟩

/-! ### The latch -/

theorem trigger_length : trigger.length = 11 := rfl

theorem latchAfter_eq (out : Memory) (act : Mode) :
    latchAfter out act = if trigger <:+ Memory.bytes out then .active else act := by
  have h := Memory.tail_eq_some_iff out trigger
  rw [trigger_length] at h
  simp only [latchAfter, h]

/-! ### The shapes of the expander operations -/

theorem popOut_of_ne_nil {s : State} (h : s.out ≠ []) : popOut s = .next (s.setOut (Memory.pop s.out)) := by
  unfold popOut
  split
  · contradiction
  · rfl

theorem popOut_of_nil {s : State} (h : s.out = []) : popOut s = .refused .popOfEmptyOut := by
  unfold popOut
  split
  · rfl
  · simp_all

theorem prefixExpansion_eq (bs : List Byte) (s : State) :
    prefixExpansion bs s = .next ((s.setOut (Memory.appendStr s.out bs)).setPrev 0) := rfl

theorem pairExpansion_of_ne_nil (bs : List Byte) {s : State} (h : s.out ≠ []) :
    pairExpansion bs s = .next ((s.setOut (Memory.appendStr (Memory.pop s.out) bs)).setPrev 0) := by
  rw [pairExpansion, popOut_of_ne_nil h]; rfl

theorem pairExpansion_of_nil (bs : List Byte) {s : State} (h : s.out = []) :
    pairExpansion bs s = .refused .popOfEmptyOut := by
  rw [pairExpansion, popOut_of_nil h]; rfl

theorem execBLit_eq (c : Code) (s : State) : execBLit c s = .next ((s.setOut (Memory.append s.out c)).setPrev c) := rfl

theorem execAPass_eq (c : Code) (s : State) :
    execAPass c s = .next ((s.setOut (Memory.append s.out c)).setAct
      (if trigger <:+ s.outBytes ++ [c] then .active else s.act)) := by
  simp only [execAPass, appendCode, latchAfter_eq, State.setOut_out, State.setOut_act, Memory.bytes_append]
  rfl

end Sys2Proof.Machine
end

