-- ==== Sys2Proof/Laws/Expander.lean ====
section
/-! SUPPORT. What one run of the expander can do, said once: its selection by the two dictionaries, the equation of
`expand`, and the inversion "if it answers next". -/

namespace Sys2Proof.Machine

/-- The expander's selection is the decoder's. -/
theorem expand_eq_exec_decode (c : Code) (s : State) : expand c s = exec (decode (.token s.act s.prev) c) s := by
  simp only [expand, decode]
  cases decodeToken s.act s.prev c <;> rfl

/-- The dormant expander runs A.PASS. -/
theorem expand_dormant {s : State} (h : s.act = .dormant) (c : Code) : expand c s = execAPass c s := by
  simp only [expand, h, decodeToken]

/-- A code that DICT1 has: a prefix expansion, whatever PREV is. -/
theorem expand_prefix {s : State} (h : s.act = .active) {c : Code} {bs : List Byte} (hd : dict1 c = some bs) :
    expand c s = prefixExpansion bs s := by
  unfold dict1 at hd
  split_ifs at hd <;> cases hd <;> subst_vars <;> simp only [expand, h] <;> rfl

theorem decodePrefix_eq_none {c : Code} (hd : dict1 c = none) : decodePrefix c = none := by
  unfold dict1 at hd
  split_ifs at hd
  simp [decodePrefix, *]

/-- After the sentinel, a code that DICT2 has: a pair expansion. -/
theorem expand_pair {s : State} (h : s.act = .active) (hp : s.prev = codeSentinel) {c : Code} {bs : List Byte}
    (hd : dict2 c = some bs) : expand c s = pairExpansion bs s := by
  unfold dict2 at hd
  split_ifs at hd <;> cases hd <;> subst_vars <;> simp only [expand, h, hp] <;> rfl

theorem decodeSecond_eq_none {c : Code} (hd : dict2 c = none) : decodeSecond c = none := by
  unfold dict2 at hd
  split_ifs at hd
  simp [decodeSecond, *]

/-- Every other code of State B: the literal. -/
theorem expand_literal {s : State} (h : s.act = .active) {c : Code} (h₁ : dict1 c = none)
    (h₂ : s.prev = codeSentinel → dict2 c = none) : expand c s = execBLit c s := by
  simp only [expand, decodeToken, h, decodePrefix_eq_none h₁]
  by_cases hp : s.prev = codeSentinel
  · simp only [if_pos hp, decodeSecond_eq_none (h₂ hp), Option.getD_none]
  · simp only [if_neg hp]

/-- The four things one run of the expander can do. -/
theorem expand_cases {c : Code} {s t : State} (h : expand c s = .next t) :
    (s.act = .dormant ∧ t = (s.setOut (Memory.append s.out c)).setAct
        (if trigger <:+ s.outBytes ++ [c] then .active else s.act)) ∨
    (s.act = .active ∧ ∃ bs, dict1 c = some bs ∧
      t = (s.setOut (Memory.appendStr s.out bs)).setPrev 0) ∨
    (s.act = .active ∧ dict1 c = none ∧ s.prev = codeSentinel ∧ s.out ≠ [] ∧ ∃ bs, dict2 c = some bs ∧
      t = (s.setOut (Memory.appendStr (Memory.pop s.out) bs)).setPrev 0) ∨
    (s.act = .active ∧ dict1 c = none ∧ (s.prev = codeSentinel → dict2 c = none) ∧
      t = (s.setOut (Memory.append s.out c)).setPrev c) := by
  cases ha : s.act with
  | dormant =>
    rw [expand_dormant ha, execAPass_eq, Host.Outcome.next.injEq] at h
    rw [ha] at h
    exact .inl ⟨rfl, h.symm⟩
  | active =>
    cases h₁ : dict1 c with
    | some bs =>
      rw [expand_prefix ha h₁, prefixExpansion_eq, Host.Outcome.next.injEq] at h
      exact .inr (.inl ⟨rfl, bs, rfl, h.symm⟩)
    | none =>
      by_cases hp : s.prev = codeSentinel ∧ ∃ bs, dict2 c = some bs
      · obtain ⟨hp, bs, h₂⟩ := hp
        rw [expand_pair ha hp h₂] at h
        by_cases ho : s.out = []
        · simp [pairExpansion_of_nil bs ho] at h
        · rw [pairExpansion_of_ne_nil bs ho, Host.Outcome.next.injEq] at h
          exact .inr (.inr (.inl ⟨rfl, rfl, hp, ho, bs, h₂, h.symm⟩))
      · have h₂ : s.prev = codeSentinel → dict2 c = none := by
          intro hq
          cases hd : dict2 c with
          | none => rfl
          | some bs => exact absurd ⟨hq, bs, hd⟩ hp
        rw [expand_literal ha h₁ h₂, execBLit_eq, Host.Outcome.next.injEq] at h
        exact .inr (.inr (.inr ⟨rfl, rfl, h₂, h.symm⟩))

/-- The expander stops in one place only: a pair operation on an empty OUT. -/
theorem expand_next_of_popSafe {s : State} (h : s.prev = codeSentinel → s.out ≠ []) (c : Code) :
    ∃ t, expand c s = .next t := by
  cases ha : s.act with
  | dormant => exact ⟨_, by rw [expand_dormant ha, execAPass_eq]⟩
  | active =>
    cases h₁ : dict1 c with
    | some bs => exact ⟨_, by rw [expand_prefix ha h₁, prefixExpansion_eq]⟩
    | none =>
      by_cases hp : s.prev = codeSentinel
      · cases h₂ : dict2 c with
        | some bs => exact ⟨_, by rw [expand_pair ha hp h₂, pairExpansion_of_ne_nil bs (h hp)]⟩
        | none => exact ⟨_, by rw [expand_literal ha h₁ fun _ => h₂, execBLit_eq]⟩
      · exact ⟨_, by rw [expand_literal ha h₁ fun hq => absurd hq hp, execBLit_eq]⟩

/-- No expansion string is empty. -/
theorem dict1_ne_nil {c : Code} {bs : List Byte} (h : dict1 c = some bs) : bs ≠ [] := by
  unfold dict1 at h
  split_ifs at h <;> cases h <;> decide

/-- No expansion string is empty. -/
theorem dict2_ne_nil {c : Code} {bs : List Byte} (h : dict2 c = some bs) : bs ≠ [] := by
  unfold dict2 at h
  split_ifs at h <;> cases h <;> decide

/-- After any run of the expander OUT is not empty (30_encoding R61: every code appends at least one byte). -/
theorem expand_out_ne_nil {c : Code} {s t : State} (h : expand c s = .next t) : t.out ≠ [] := by
  intro ht
  have hb : Memory.bytes t.out = [] := by rw [ht]; rfl
  obtain ⟨_, rfl⟩ | ⟨_, bs, hd, rfl⟩ | ⟨_, _, _, _, bs, hd, rfl⟩ | ⟨_, _, _, rfl⟩ := expand_cases h <;>
    simp at hb
  · exact dict1_ne_nil hd hb.2
  · exact dict2_ne_nil hd hb.2

/-- The expander writes PREV, ACT and OUT and nothing else (41_expander_dormant R90). -/
theorem expand_frame {c : Code} {s t : State} (h : expand c s = .next t) :
    t = { s with prev := t.prev, act := t.act, out := t.out } := by
  obtain ⟨_, rfl⟩ | ⟨_, bs, hd, rfl⟩ | ⟨_, _, _, _, bs, hd, rfl⟩ | ⟨_, _, _, rfl⟩ := expand_cases h <;> rfl

end Sys2Proof.Machine
end

