-- ==== Sys2Proof/Laws/PerInstr.lean ====
section
/-! SUPPORT. The families of statements about every instruction as syntax. `Home`: every well-formed instruction has a
context its row of the opcode table stands in. -/

namespace Sys2Proof.Laws.Home

/-- Every well-formed instruction fits some context. -/
def Statement (i : Instr) : Prop := i.wellFormed = true → ∃ ctx : Context, i.fits ctx = true

theorem unp0 (p : BitVec 7) (c : BitVec 1) : Statement (.unp0 p c) := fun _ => ⟨.packed 0, rfl⟩
theorem unp1 (p : BitVec 6) (c : BitVec 2) : Statement (.unp1 p c) := fun _ => ⟨.packed 1, rfl⟩
theorem unp2 (p : BitVec 5) (c : BitVec 3) : Statement (.unp2 p c) := fun _ => ⟨.packed 2, rfl⟩
theorem unp3 (p : BitVec 4) (c : BitVec 4) : Statement (.unp3 p c) := fun _ => ⟨.packed 3, rfl⟩
theorem unp4 (p : BitVec 3) (c : BitVec 5) : Statement (.unp4 p c) := fun _ => ⟨.packed 4, rfl⟩
theorem unp5 (p : BitVec 2) (c : BitVec 6) : Statement (.unp5 p c) := fun _ => ⟨.packed 5, rfl⟩
theorem unp6 (p : BitVec 1) (c : BitVec 7) : Statement (.unp6 p c) := fun _ => ⟨.packed 6, rfl⟩
theorem aPass (c : Code) : Statement (.aPass c) := fun _ => ⟨.token .dormant 0, rfl⟩
theorem bPfxGt : Statement .bPfxGt := fun _ => ⟨.token .active 0, rfl⟩
theorem bPfxBar : Statement .bPfxBar := fun _ => ⟨.token .active 0, rfl⟩
theorem bPfxDlr : Statement .bPfxDlr := fun _ => ⟨.token .active 0, rfl⟩
theorem bPfxAt : Statement .bPfxAt := fun _ => ⟨.token .active 0, rfl⟩
theorem bPairA : Statement .bPairA := fun _ => ⟨.token .active codeSentinel, rfl⟩
theorem bPairLowerA : Statement .bPairLowerA := fun _ => ⟨.token .active codeSentinel, rfl⟩
theorem bPairB : Statement .bPairB := fun _ => ⟨.token .active codeSentinel, rfl⟩
theorem bPairC : Statement .bPairC := fun _ => ⟨.token .active codeSentinel, rfl⟩
theorem bPairF : Statement .bPairF := fun _ => ⟨.token .active codeSentinel, rfl⟩
theorem bPairI : Statement .bPairI := fun _ => ⟨.token .active codeSentinel, rfl⟩
theorem bPairP : Statement .bPairP := fun _ => ⟨.token .active codeSentinel, rfl⟩
theorem bPairS : Statement .bPairS := fun _ => ⟨.token .active codeSentinel, rfl⟩
theorem bPairU : Statement .bPairU := fun _ => ⟨.token .active codeSentinel, rfl⟩
theorem bLit (c : Code) : Statement (.bLit c) := fun _ => ⟨.token .active 0, rfl⟩

end Sys2Proof.Laws.Home
end

