-- ==== Sys2Proof/Laws/Step.lean ====
section
/-! SUPPORT. What one step can do, said once. -/

namespace Sys2Proof.Machine

theorem cmdStep_eq_next {s t : State} (h : cmdStep s = .next t) :
    s.st = .run ∧ ∃ v, Memory.read s.input s.ipos = some v ∧ exec (decode (.packed s.bit) v) s.advance = .next t := by
  unfold cmdStep at h
  split at h
  · rename_i hst
    split at h
    · rename_i v hv; exact ⟨hst, v, hv, h⟩
    · cases h
  · cases h
  · cases h

theorem cmdFinish_eq_next {s t : State} (h : cmdFinish s = .next t) :
    s.st = .run ∧ s.ipos = s.n ∧ t = s.setSt .done := by
  unfold cmdFinish at h
  split at h
  · rename_i hst
    split at h
    · rename_i hn; exact ⟨hst, hn, (Host.Outcome.next.inj h).symm⟩
    · cases h
  · cases h
  · cases h

theorem cmdDrive_eq_next {c : Code} {s t : State} (h : cmdDrive c s = .next t) : s.st = .run ∧ expand c s = .next t := by
  unfold cmdDrive at h
  split at h
  · rename_i hst; exact ⟨hst, by rw [expand_eq_exec_decode]; exact h⟩
  · cases h
  · cases h

/-- The five things one step can do: hold, START, STEP, FINISH, one code on the expander's own interface. -/
theorem step_cases {s t : State} (h : step s = .next t) :
    (s.host = [] ∧ t = s) ∨
    (∃ buffer rest, (s.host = .start buffer :: rest ∨ s.host = .startWithStep buffer :: rest) ∧
      t = ⟨0, 0, 0, .dormant, [], 0, .run, Memory.ofBytes buffer, rest⟩) ∨
    (∃ rest v, s.host = .step :: rest ∧ s.st = .run ∧ Memory.read s.input s.ipos = some v ∧
      exec (decode (.packed s.bit) v) (s.setHost rest).advance = .next t) ∨
    (∃ rest, s.host = .finish :: rest ∧ s.st = .run ∧ s.ipos = s.n ∧ t = (s.setHost rest).setSt .done) ∨
    (∃ c rest, s.host = .drive c :: rest ∧ s.st = .run ∧ expand c (s.setHost rest) = .next t) := by
  unfold step at h
  split at h
  · rename_i hh; exact .inl ⟨hh, (Host.Outcome.next.inj h).symm⟩
  · rename_i cmd rest hh
    cases cmd with
    | start buffer => exact .inr (.inl ⟨buffer, rest, .inl hh, (Host.Outcome.next.inj h).symm⟩)
    | startWithStep buffer => exact .inr (.inl ⟨buffer, rest, .inr hh, (Host.Outcome.next.inj h).symm⟩)
    | step =>
      obtain ⟨hst, v, hv, he⟩ := cmdStep_eq_next h
      exact .inr (.inr (.inl ⟨rest, v, hh, hst, hv, he⟩))
    | finish =>
      obtain ⟨hst, hn, ht⟩ := cmdFinish_eq_next h
      exact .inr (.inr (.inr (.inl ⟨rest, hh, hst, hn, ht⟩)))
    | drive c =>
      obtain ⟨hst, he⟩ := cmdDrive_eq_next h
      exact .inr (.inr (.inr (.inr ⟨c, rest, hh, hst, he⟩)))

end Sys2Proof.Machine
end

