-- ==== Sys2Proof/Laws/Unpacker.lean ====
section
/-! SUPPORT. What one unpacker operation can do, said once: it runs the expander on one code or on two, then writes LOW
and BIT. -/

namespace Sys2Proof.Machine

theorem unpackOne_eq_next_iff (k : Nat) {w w' : Nat} (p : BitVec w) (c : BitVec w') (next : Fin 7) (s t : State) :
    unpackOne k p c next s = .next t ↔
      ∃ u, expand (firstCode k p s.low) s = .next u ∧ u.setUnpacker (carriedLow c) next = t := by
  simp [unpackOne, andThen_eq_next_iff]

theorem execUnp6_eq_next_iff (p : BitVec 1) (c : BitVec 7) (s t : State) :
    execUnp6 p c s = .next t ↔
      ∃ u w, expand (firstCode 6 p s.low) s = .next u ∧ expand (secondCode c) u = .next w ∧ w.setUnpacker 0 0 = t := by
  simp only [execUnp6, andThen_eq_next_iff, Host.Outcome.next.injEq]
  constructor
  · rintro ⟨u, hu, w, hw, ht⟩; exact ⟨u, w, hu, hw, ht⟩
  · rintro ⟨u, w, hu, hw, ht⟩; exact ⟨u, hu, w, hw, ht⟩

/-- An operation that is no expander operation runs the expander once or twice and then writes LOW and BIT. -/
theorem unpacker_cases {i : Instr} {s t : State} (hi : isExpander i = false) (h : exec i s = .next t) :
    (∃ c u low bit, expand c s = .next u ∧ t = u.setUnpacker low bit) ∨
    (∃ c₁ c₂ u w, expand c₁ s = .next u ∧ expand c₂ u = .next w ∧ t = w.setUnpacker 0 0) := by
  cases i <;> simp only [isExpander, reduceCtorEq] at hi
  case unp6 p c =>
    obtain ⟨u, w, hu, hw, rfl⟩ := (execUnp6_eq_next_iff p c s t).1 h
    exact .inr ⟨_, _, u, w, hu, hw, rfl⟩
  all_goals
    obtain ⟨u, hu, rfl⟩ := (unpackOne_eq_next_iff _ _ _ _ s t).1 h
    exact .inl ⟨_, u, _, _, hu, rfl⟩

/-- An expander operation is what the expander runs in some context: its result has the shapes of `expand`. -/
theorem expander_cases {i : Instr} {s t : State} (hi : isExpander i = true) (h : exec i s = .next t) :
    (∃ c, i = .aPass c ∧ t = (s.setOut (Memory.append s.out c)).setAct
        (if trigger <:+ s.outBytes ++ [c] then .active else s.act)) ∨
    (∃ c, i = .bLit c ∧ t = (s.setOut (Memory.append s.out c)).setPrev c) ∨
    (∃ bs, (i, bs) ∈ [(Instr.bPfxGt, strDriver), (.bPfxBar, strIokit), (.bPfxDlr, strSecurity), (.bPfxAt, strApplePrefix)] ∧
      t = (s.setOut (Memory.appendStr s.out bs)).setPrev 0) ∨
    (∃ bs, (i, bs) ∈ [(Instr.bPairA, strApple), (.bPairLowerA, strAction), (.bPairB, strBluetooth), (.bPairC, strController),
        (.bPairF, strFamily), (.bPairI, strIntel), (.bPairP, strProfile), (.bPairS, strStorage), (.bPairU, strAppleUsb)] ∧
      s.out ≠ [] ∧ t = (s.setOut (Memory.appendStr (Memory.pop s.out) bs)).setPrev 0) := by
  have hpair : ∀ bs, pairExpansion bs s = .next t →
      s.out ≠ [] ∧ t = (s.setOut (Memory.appendStr (Memory.pop s.out) bs)).setPrev 0 := by
    intro bs hp
    by_cases ho : s.out = []
    · simp [pairExpansion_of_nil bs ho] at hp
    · rw [pairExpansion_of_ne_nil bs ho, Host.Outcome.next.injEq] at hp
      exact ⟨ho, hp.symm⟩
  cases i <;> simp only [isExpander, reduceCtorEq] at hi
  case aPass c =>
    rw [show exec (.aPass c) s = execAPass c s from rfl, execAPass_eq, Host.Outcome.next.injEq] at h
    exact .inl ⟨c, rfl, h.symm⟩
  case bLit c =>
    rw [show exec (.bLit c) s = execBLit c s from rfl, execBLit_eq, Host.Outcome.next.injEq] at h
    exact .inr (.inl ⟨c, rfl, h.symm⟩)
  case bPfxGt => exact .inr (.inr (.inl ⟨strDriver, by simp, (Host.Outcome.next.inj h).symm⟩))
  case bPfxBar => exact .inr (.inr (.inl ⟨strIokit, by simp, (Host.Outcome.next.inj h).symm⟩))
  case bPfxDlr => exact .inr (.inr (.inl ⟨strSecurity, by simp, (Host.Outcome.next.inj h).symm⟩))
  case bPfxAt => exact .inr (.inr (.inl ⟨strApplePrefix, by simp, (Host.Outcome.next.inj h).symm⟩))
  case bPairA => exact .inr (.inr (.inr ⟨strApple, by simp, hpair _ h⟩))
  case bPairLowerA => exact .inr (.inr (.inr ⟨strAction, by simp, hpair _ h⟩))
  case bPairB => exact .inr (.inr (.inr ⟨strBluetooth, by simp, hpair _ h⟩))
  case bPairC => exact .inr (.inr (.inr ⟨strController, by simp, hpair _ h⟩))
  case bPairF => exact .inr (.inr (.inr ⟨strFamily, by simp, hpair _ h⟩))
  case bPairI => exact .inr (.inr (.inr ⟨strIntel, by simp, hpair _ h⟩))
  case bPairP => exact .inr (.inr (.inr ⟨strProfile, by simp, hpair _ h⟩))
  case bPairS => exact .inr (.inr (.inr ⟨strStorage, by simp, hpair _ h⟩))
  case bPairU => exact .inr (.inr (.inr ⟨strAppleUsb, by simp, hpair _ h⟩))

end Sys2Proof.Machine
end

