-- ==== Sys2Proof/Tests/Slice0.lean ====
section
/-! SUPPORT. Small tests and the witnesses of the statements' hypotheses. Expected results are those of
95_test_vectors (the vector is named), of the examples inside the rules, or worked by hand from them. -/

namespace Sys2Proof.Tests

open Sys2Proof Sys2Proof.Machine

/-! ### WellFormed -/

/-- 42_expander_active R118: B.LIT never has a single-character trigger as its code. -/
theorem test_wellFormed_refuses_literal_triggers :
    Instr.wellFormed (.bLit 0x3E) = false ∧ Instr.wellFormed (.bLit 0x7C) = false ∧
      Instr.wellFormed (.bLit 0x24) = false ∧ Instr.wellFormed (.bLit 0x40) = false := by decide

theorem test_wellFormed_accepts_sentinel_literal : Instr.wellFormed (.bLit 0x21) = true := by decide

/-- R65: a pair row does not stand where PREV is not 0x21, B.LIT does not where a pair row does. -/
theorem test_fits_pair_rows :
    Instr.fits .bPairA (.token .active 0x41) = false ∧ Instr.fits (.bLit 0x41) (.token .active 0x21) = false ∧
      Instr.fits (.unp3 0 0) (.packed 2) = false := by decide

/-! ### Decoding: a word written out for every constructor (byte patterns of 30_encoding R51, codes of R58) -/

theorem test_decode_unp0 : decode (.packed 0) 0b10110101 = .unp0 0b0110101 0b1 := by decide
theorem test_decode_unp1 : decode (.packed 1) 0b10110101 = .unp1 0b110101 0b10 := by decide
theorem test_decode_unp2 : decode (.packed 2) 0b10110101 = .unp2 0b10101 0b101 := by decide
theorem test_decode_unp3 : decode (.packed 3) 0b10110101 = .unp3 0b0101 0b1011 := by decide
theorem test_decode_unp4 : decode (.packed 4) 0b10110101 = .unp4 0b101 0b10110 := by decide
theorem test_decode_unp5 : decode (.packed 5) 0b10110101 = .unp5 0b01 0b101101 := by decide
theorem test_decode_unp6 : decode (.packed 6) 0b10110101 = .unp6 0b1 0b1011010 := by decide
theorem test_decode_aPass : decode (.token .dormant 0) 0b0100001 = .aPass 0x21 := by decide
theorem test_decode_bPfxGt : decode (.token .active 0) 0b0111110 = .bPfxGt := by decide
theorem test_decode_bPfxBar : decode (.token .active 0) 0b1111100 = .bPfxBar := by decide
theorem test_decode_bPfxDlr : decode (.token .active 0) 0b0100100 = .bPfxDlr := by decide
theorem test_decode_bPfxAt : decode (.token .active 0) 0b1000000 = .bPfxAt := by decide
theorem test_decode_bPairA : decode (.token .active 0x21) 0b1000001 = .bPairA := by decide
theorem test_decode_bPairLowerA : decode (.token .active 0x21) 0b1100001 = .bPairLowerA := by decide
theorem test_decode_bPairB : decode (.token .active 0x21) 0b1000010 = .bPairB := by decide
theorem test_decode_bPairC : decode (.token .active 0x21) 0b1000011 = .bPairC := by decide
theorem test_decode_bPairF : decode (.token .active 0x21) 0b1000110 = .bPairF := by decide
theorem test_decode_bPairI : decode (.token .active 0x21) 0b1001001 = .bPairI := by decide
theorem test_decode_bPairP : decode (.token .active 0x21) 0b1010000 = .bPairP := by decide
theorem test_decode_bPairS : decode (.token .active 0x21) 0b1010011 = .bPairS := by decide
theorem test_decode_bPairU : decode (.token .active 0x21) 0b1010101 = .bPairU := by decide
theorem test_decode_bLit : decode (.token .active 0) 0b1000001 = .bLit 0x41 := by decide

/-- Vector V-B25: a code above 0x7F is a literal, also after the sentinel. -/
theorem test_decode_bLit_high : decode (.token .active 0x21) 0x80 = .bLit 0x80 := by decide

theorem test_decodeTableWord : decodeTableWord 8 0x3E = some .bPfxGt ∧ decodeTableWord 8 0x61 = some .bPairLowerA ∧
    decodeTableWord 16 0x3E21 = none := by decide

/-! ### States to test on -/

/-- The next state of a result. -/
def nextOf : Result → Option State
  | .next s => some s
  | .fault _ => none
  | .refused _ => none

/-- A decode in progress in State A with nothing received, LOW and BIT as given. -/
def dormantAt (low : BitVec 7) (bit : Fin 7) : State := { State.started with low := low, bit := bit }

/-- The state of every example of 42_expander_active: OUT = "loaded kext", ACT = 1, PREV = 0. -/
def afterTrigger : State := { State.started with act := .active, out := Memory.ofBytes trigger }

/-- The same with the sentinel just handled: OUT = "loaded kext!", PREV = 0x21. -/
def afterSentinel : State :=
  { State.started with act := .active, prev := 0x21, out := Memory.ofBytes (trigger ++ [0x21]) }

/-- LOW, BIT and OUT of the state after an operation. -/
def unpackView (r : Result) : Option (BitVec 7 × Fin 7 × List Byte) := (nextOf r).map fun t => (t.low, t.bit, t.outBytes)

/-- PREV, OLEN and what OUT holds after "loaded kext". -/
def expandView (r : Result) : Option (Code × Nat × List Byte) :=
  (nextOf r).map fun t => (t.prev, t.olen, t.outBytes.drop 11)

/-! ### The unpacker: vectors V-O0 to V-O11 -/

theorem test_unp0_V_O0 : unpackView (exec (decode (.packed 0) 0xB5) (dormantAt 0x00 0)) =
    some (0x01, 1, [0x35]) := by decide
theorem test_unp1_V_O1 : unpackView (exec (decode (.packed 1) 0xB5) (dormantAt 0x00 1)) =
    some (0x02, 2, [0x6A]) := by decide
theorem test_unp2_V_O2 : unpackView (exec (decode (.packed 2) 0xB5) (dormantAt 0x02 2)) =
    some (0x05, 3, [0x56]) := by decide
theorem test_unp3_V_O3 : unpackView (exec (decode (.packed 3) 0xB5) (dormantAt 0x02 3)) =
    some (0x0B, 4, [0x2A]) := by decide
theorem test_unp4_V_O4 : unpackView (exec (decode (.packed 4) 0xB5) (dormantAt 0x0A 4)) =
    some (0x16, 5, [0x5A]) := by decide
theorem test_unp5_V_O5 : unpackView (exec (decode (.packed 5) 0xB5) (dormantAt 0x0A 5)) =
    some (0x2D, 6, [0x2A]) := by decide
theorem test_unp6_V_O6 : unpackView (exec (decode (.packed 6) 0xB5) (dormantAt 0x2A 6)) =
    some (0x00, 0, [0x6A, 0x5A]) := by decide
theorem test_unp0_V_O7 : unpackView (exec (decode (.packed 0) 0x80) (dormantAt 0x00 0)) =
    some (0x01, 1, [0x00]) := by decide
theorem test_unp1_V_O8 : unpackView (exec (decode (.packed 1) 0x00) (dormantAt 0x01 1)) =
    some (0x00, 2, [0x01]) := by decide
theorem test_unp5_V_O9 : unpackView (exec (decode (.packed 5) 0xFF) (dormantAt 0x1F 5)) =
    some (0x3F, 6, [0x7F]) := by decide
theorem test_unp6_V_O10 : unpackView (exec (decode (.packed 6) 0xFF) (dormantAt 0x3F 6)) =
    some (0x00, 0, [0x7F, 0x7F]) := by decide

/-! ### State A: vectors V-A3 and V-A10, one step before the end -/

/-- The example of 41_expander_dormant R91: the `t` of "loaded kext" sets the latch, PREV stays 0. -/
theorem test_aPass_sets_latch :
    (nextOf (exec (.aPass 0x74) { State.started with out := Memory.ofBytes (trigger.take 10) })).map
      (fun t => (t.act, t.prev, t.olen)) = some (.active, 0, 11) := by decide

/-- V-A6: "loaded kex>" does not set it, and `>` is a literal. -/
theorem test_aPass_other_code :
    (nextOf (exec (.aPass 0x3E) { State.started with out := Memory.ofBytes (trigger.take 10) })).map
      (fun t => (t.act, t.out.length, t.outBytes.drop 10)) = some (.dormant, 11, [0x3E]) := by decide

/-! ### State B: vectors V-B1 to V-B20, the last operation of each -/

theorem test_bPfxGt_V_B1 : expandView (exec .bPfxGt afterTrigger) =
    some (0, 28, [0x63, 0x6F, 0x6D, 0x2E, 0x61, 0x70, 0x70, 0x6C, 0x65, 0x2E, 0x64, 0x72, 0x69, 0x76, 0x65, 0x72, 0x2E]) := by decide
theorem test_bPfxBar_V_B2 : expandView (exec .bPfxBar afterTrigger) =
    some (0, 27, [0x63, 0x6F, 0x6D, 0x2E, 0x61, 0x70, 0x70, 0x6C, 0x65, 0x2E, 0x69, 0x6F, 0x6B, 0x69, 0x74, 0x2E]) := by decide
theorem test_bPfxDlr_V_B3 : expandView (exec .bPfxDlr afterTrigger) =
    some (0, 30, [0x63, 0x6F, 0x6D, 0x2E, 0x61, 0x70, 0x70, 0x6C, 0x65, 0x2E, 0x73, 0x65, 0x63, 0x75, 0x72, 0x69, 0x74, 0x79, 0x2E]) := by decide
theorem test_bPfxAt_V_B4 : expandView (exec .bPfxAt afterTrigger) =
    some (0, 21, [0x63, 0x6F, 0x6D, 0x2E, 0x61, 0x70, 0x70, 0x6C, 0x65, 0x2E]) := by decide
theorem test_bPairA_V_B8 : expandView (exec .bPairA afterSentinel) =
    some (0, 16, [0x41, 0x70, 0x70, 0x6C, 0x65]) := by decide
theorem test_bPairLowerA_V_B9 : expandView (exec .bPairLowerA afterSentinel) =
    some (0, 17, [0x41, 0x63, 0x74, 0x69, 0x6F, 0x6E]) := by decide
theorem test_bPairB_V_B10 : expandView (exec .bPairB afterSentinel) =
    some (0, 20, [0x42, 0x6C, 0x75, 0x65, 0x74, 0x6F, 0x6F, 0x74, 0x68]) := by decide
theorem test_bPairC_V_B11 : expandView (exec .bPairC afterSentinel) =
    some (0, 21, [0x43, 0x6F, 0x6E, 0x74, 0x72, 0x6F, 0x6C, 0x6C, 0x65, 0x72]) := by decide
theorem test_bPairF_V_B12 : expandView (exec .bPairF afterSentinel) =
    some (0, 17, [0x46, 0x61, 0x6D, 0x69, 0x6C, 0x79]) := by decide
theorem test_bPairI_V_B13 : expandView (exec .bPairI afterSentinel) =
    some (0, 16, [0x49, 0x6E, 0x74, 0x65, 0x6C]) := by decide
theorem test_bPairP_V_B14 : expandView (exec .bPairP afterSentinel) =
    some (0, 18, [0x50, 0x72, 0x6F, 0x66, 0x69, 0x6C, 0x65]) := by decide
theorem test_bPairS_V_B15 : expandView (exec .bPairS afterSentinel) =
    some (0, 18, [0x53, 0x74, 0x6F, 0x72, 0x61, 0x67, 0x65]) := by decide
theorem test_bPairU_V_B16 : expandView (exec .bPairU afterSentinel) =
    some (0, 19, [0x41, 0x70, 0x70, 0x6C, 0x65, 0x55, 0x53, 0x42]) := by decide

/-- V-B5: `>` after `!` leaves the `!` in OUT. -/
theorem test_bPfxGt_V_B5 : expandView (expand 0x3E afterSentinel) =
    some (0, 29, [0x21, 0x63, 0x6F, 0x6D, 0x2E, 0x61, 0x70, 0x70, 0x6C, 0x65, 0x2E, 0x64, 0x72, 0x69, 0x76, 0x65, 0x72, 0x2E]) := by decide

theorem test_bLit_V_B20 : expandView (exec (.bLit 0x21) afterTrigger) = some (0x21, 12, [0x21]) := by decide

/-- V-B6: `x` after `!` is a literal and the new lookback. -/
theorem test_bLit_V_B6 : expandView (expand 0x78 afterSentinel) = some (0x78, 13, [0x21, 0x78]) := by decide

/-! ### Commands -/

/-- The host's view after a step. -/
def viewAfter (s : State) : Option HostView := (nextOf (step s)).map observe

theorem test_start_any_state : nextOf (step { afterSentinel with host := [.startWithStep [0x41]] }) =
    some { State.started with input := [(0, 0x41)] } := by decide

/-- The example of 43_decoder R132: `IN[0]` = 0xEC. -/
theorem test_step_first_byte :
    (nextOf (step { State.started with input := [(0, 0xEC)], host := [.step] })).map
      (fun t => (t.ipos, t.low, t.bit, t.outBytes, t.act)) = some (1, 1, 1, [0x6C], .dormant) := by decide

theorem test_finish_shows_the_result :
    viewAfter { State.started with out := [(0, 0x41)], host := [.finish] } = some ⟨.done, 1, some [0x41]⟩ := by decide

/-- V-D1, its last STEP (byte 7D): `t` sets the latch and `>` is expanded, both codes of one UNP6. -/
theorem test_step_V_D1 :
    (nextOf (step { State.started with
      low := 0x34, bit := 6, ipos := 0, input := [(0, 0x7D)], out := Memory.ofBytes (trigger.take 10), host := [.step] })).map
      (fun t => (t.act, t.prev, t.outBytes.drop 10)) =
    some (.active, 0, [0x74, 0x63, 0x6F, 0x6D, 0x2E, 0x61, 0x70, 0x70, 0x6C, 0x65, 0x2E, 0x64, 0x72, 0x69, 0x76, 0x65, 0x72, 0x2E]) := by decide

/-- V-D2, its last STEP (byte 82): `!` and `A` are the two codes of one UNP6. -/
theorem test_step_V_D2 :
    expandView (step { afterTrigger with low := 0x21, bit := 6, input := [(0, 0x82)], host := [.step] }) =
    some (0, 16, [0x41, 0x70, 0x70, 0x6C, 0x65]) := by decide

theorem test_fetchWord_runs_pair : expandView (step (State.reset.withFetchWord 8 0x41)) =
    some (0, 16, [0x41, 0x70, 0x70, 0x6C, 0x65]) := by decide

/-! ### The functions of the spec on lists -/

/-- V-U8. -/
theorem test_unpack_V_U8 : unpack [0xAA, 0x55, 0xAA, 0x55, 0xAA, 0x55, 0xAA, 0x55, 0xAA] =
    [0x2A, 0x2B, 0x29, 0x2D, 0x25, 0x35, 0x15, 0x55, 0x55, 0x54] := by decide

/-- V-U10: the packed form of "ABCDEFG". -/
theorem test_pack_V_U10 : pack [0x41, 0x42, 0x43, 0x44, 0x45, 0x46, 0x47] =
    [0x41, 0xE1, 0x90, 0x58, 0x34, 0x1E, 0x01] := by decide

/-- V-B18: `!!A` keeps the first `!`. -/
theorem test_readForms_V_B18 : readForms [0x21, 0x21, 0x41] = [0x21, 0x41, 0x70, 0x70, 0x6C, 0x65] := by decide

/-- The deferred form of V-B6 (95_test_vectors 2.4). -/
theorem test_deferred_V_B6 :
    ((trigger ++ [0x21, 0x78]).foldl (fun d c => Deferred.expand c d) Deferred.reset).hold = some 0x78 := by decide

/-- V-A7: a mismatch on `l` restarts the match at 1. -/
theorem test_matchAfter_V_A7 : matchAfter (0x6C :: trigger) = 11 := by decide

/-! ### Witnesses: a state and operands that meet the hypotheses of each statement -/

/-- A decode of one byte in progress, one byte to go. -/
def oneToGo : State := { State.started with input := [(0, 0xEC)], host := [.step] }

/-- The same byte consumed, FINISH to come. -/
def allConsumed : State :=
  { State.started with
    low := 1, bit := 1, ipos := 1, out := [(0, 0x6C)], input := [(0, 0xEC)], host := [.finish] }

/-- Its decode is over. -/
def finished : State := { allConsumed with st := .done, host := [] }

/-- After the sentinel, with a code to come on the expander's own interface. -/
def driven : State := { afterSentinel with host := [.drive 0x41] }

theorem witness_startBeginsADecode :
    ({ afterSentinel with host := [.start [0x41]] } : State).host = .start [0x41] :: [] := by decide
theorem witness_startWithStep :
    ({ afterSentinel with host := [.startWithStep []] } : State).host = .startWithStep [] :: [] := by decide
theorem witness_stepRunsTheDecodedInstruction :
    oneToGo.host = .step :: [] ∧ oneToGo.st = .run ∧ Memory.wf oneToGo.input ∧ oneToGo.ipos < oneToGo.n := by decide
theorem witness_driveRunsTheDecodedInstruction : driven.host = .drive 0x41 :: [] ∧ driven.st = .run := by decide
theorem witness_hold : State.reset.host = [] := by decide
theorem witness_finishEndsTheDecode :
    allConsumed.host = .finish :: [] ∧ allConsumed.st = .run ∧ allConsumed.ipos = allConsumed.n := by decide
theorem witness_finishOfEmptyBuffer :
    ({ State.reset with host := [.start [], .finish] } : State).host = .start [] :: .finish :: [] := by decide
theorem witness_finishFlushes : (⟨[], some 0x78, .active⟩ : Deferred).hold = some 0x78 := by decide
theorem witness_finishNothingHeld : Deferred.reset.hold = none := by decide
theorem witness_refusedStepNotRunning :
    ({ finished with host := [.step] } : State).host = .step :: [] ∧ finished.st ≠ .run := by decide
theorem witness_refusedStepPastEnd :
    let s := ({ allConsumed with host := [.step] } : State)
    s.host = .step :: [] ∧ s.st = .run ∧ Memory.wf s.input ∧ s.ipos = s.n := by decide
theorem witness_refusedFinishBeforeEnd :
    let s := ({ oneToGo with host := [.finish] } : State)
    s.host = .finish :: [] ∧ s.st = .run ∧ s.ipos < s.n := by decide
theorem witness_refusedFinishNotRunning :
    ({ State.reset with host := [.finish] } : State).host = .finish :: [] ∧ State.reset.st ≠ .run := by decide
theorem witness_tableSelects : tableSelects .active 0x21 0x41 .bPairA := by
  refine ⟨⟨"B.PAIR.A", 0x41, 0xFF, .active, some 0x21, 3, .bPairA⟩, ?_, ?_, ?_, ?_⟩ <;> decide
theorem witness_decodeEncode :
    Instr.wellFormed (.bLit 0x41) = true ∧ Instr.fits (.bLit 0x41) (.token .active 0x20) = true := by decide
theorem witness_fetchWord : decodeTableWord 8 0xFF = some (.bLit 0xFF) := by decide
theorem witness_popSafe : PopSafe afterSentinel := fun _ => by decide
theorem witness_unpackOneCode_unp0 : PopSafe afterSentinel ∧ afterSentinel.low = 0 := ⟨witness_popSafe, rfl⟩
theorem witness_emittedCodes : (0x3F : BitVec 7).toNat < 2 ^ (6 : Fin 7).val ∧ (0 : BitVec 7).toNat < 2 ^ (0 : Fin 7).val := by
  decide
theorem witness_emittedCodes_unpack : (0x7F : Code) ∈ unpack [0xFF] := by decide
theorem witness_countLaw : (List.replicate 7 (0 : Byte)).length % 7 = 0 := by decide
theorem witness_groups :
    (List.replicate 7 (0 : Byte)).length % 7 = 0 ∧ ([1, 2, 3, 4, 5, 6, 7] : List Byte).length = 7 := by decide
theorem witness_chunks : ([] : List Byte).length % 7 = 0 := by decide
theorem witness_unpackOfPack : ∀ c ∈ ([0x00, 0x7F] : List Code), c.toNat < 128 := by decide
/-- The clause of length 7 modulo 8, at its first length (95_test_vectors V-U10: "ABCDEFG" comes back with a code 0x00). -/
theorem witness_unpackOfPack_lengthSeven :
    (∀ c ∈ ([0x41, 0x42, 0x43, 0x44, 0x45, 0x46, 0x47] : List Code), c.toNat < 128) ∧
    ([0x41, 0x42, 0x43, 0x44, 0x45, 0x46, 0x47] : List Code).length % 8 = 7 := by decide
/-- The other clause on both sides of that length. -/
theorem witness_unpackOfPack_lengthsSixAndEight :
    (∀ c ∈ List.replicate 8 (0x7F : Code), c.toNat < 128) ∧ (List.replicate 6 (0x7F : Code)).length % 8 ≠ 7 ∧
    (List.replicate 8 (0x7F : Code)).length % 8 ≠ 7 := by decide
theorem witness_pairExpansions : afterSentinel.out ≠ [] := by decide
theorem witness_pairNeedsAByte : State.started.out = [] := by decide
theorem witness_literal_noSentinel :
    (0x41 : Code) ∉ ([0x3E, 0x7C, 0x24, 0x40] : List Code) ∧ (0x20 : Code) ≠ 0x21 := by decide
theorem witness_literal_afterSentinel :
    (0x21 : Code) ∉ ([0x3E, 0x7C, 0x24, 0x40] : List Code) ∧
      (0x21 : Code) ∉ ([0x41, 0x61, 0x42, 0x43, 0x46, 0x49, 0x50, 0x53, 0x55] : List Code) := by decide
theorem witness_triggersIgnoreTheLookback :
    afterSentinel.act = .active ∧ (0x40 : Code) ∈ ([0x3E, 0x7C, 0x24, 0x40] : List Code) := by decide
theorem witness_expansionsAreNotReadAgain :
    afterSentinel.act = .active ∧ afterSentinel.prev = 0x21 ∧
      (0x41 : Code) ∈ ([0x41, 0x61, 0x42, 0x43, 0x46, 0x49, 0x50, 0x53, 0x55] : List Code) ∧
      (nextOf (expand 0x41 afterSentinel)).isSome = true := by decide
theorem witness_expansionsAreNotReadAgain_prefix :
    afterTrigger.act = .active ∧ (0x3E : Code) ∈ ([0x3E, 0x7C, 0x24, 0x40] : List Code) ∧
      (nextOf (expand 0x3E afterTrigger)).isSome = true := by decide
theorem witness_dictionaries : dict1 0x3E = some strDriver ∧ dict2 0x41 = some strApple := by decide
theorem witness_secondTriggerPhrase : afterTrigger.act = .active := by decide
theorem witness_latch_expand :
    (nextOf (expand 0x74 { State.started with out := Memory.ofBytes (trigger.take 10) })).isSome = true ∧
      (nextOf (expand 0x74 afterTrigger)).isSome = true := by decide
theorem witness_latch_step : (nextOf (step driven)).isSome = true ∧ startNext driven = false ∧ driven.act = .active := by
  decide
theorem witness_operationsLeaveTheRestAlone :
    (nextOf (exec .bPairU afterSentinel)).isSome = true ∧ (nextOf (exec (.aPass 0x21) State.started)).isSome = true := by
  decide
theorem witness_expanderStores :
    isExpander .bPairA = true ∧ Memory.wf afterSentinel.out ∧ (nextOf (exec .bPairA afterSentinel)).isSome = true ∧
      (0 : Nat) < (storedAt afterSentinel .bPairA).1 ∧ (4 : Nat) < (storedAt afterSentinel .bPairA).2.length := by decide
theorem witness_noOperationTouches :
    Memory.wf afterSentinel.out ∧ (nextOf (exec (.unp6 1 0x41) afterSentinel)).isSome = true ∧
      10 + 1 < afterSentinel.olen := by decide
theorem witness_olenGrows :
    (nextOf (exec (.bLit 0) State.started)).isSome = true ∧ (nextOf (exec .bPfxGt State.started)).isSome = true ∧
      (nextOf (exec .bPfxBar State.started)).isSome = true ∧ (nextOf (exec .bPfxDlr State.started)).isSome = true ∧
      (nextOf (exec .bPfxAt State.started)).isSome = true ∧ (nextOf (exec .bPairC afterSentinel)).isSome = true := by decide
theorem witness_oneStepWrites : oneToGo.host = .step :: [] ∧ (nextOf (step oneToGo)).isSome = true := by decide
theorem witness_stepDependsOnTheByte :
    oneToGo.host = .step :: [] ∧ Memory.read oneToGo.input oneToGo.ipos = some 0xEC ∧
      Memory.read (Memory.ofBytes [0xEC, 0x77]) oneToGo.ipos = some 0xEC := by decide
theorem witness_onlyAStepMoves : (nextOf (step oneToGo)).isSome = true ∧ startNext oneToGo = false := by decide
theorem witness_onlyAStepMoves_finish : (nextOf (step allConsumed)).isSome = true ∧ startNext allConsumed = false := by
  decide
theorem witness_outIsProvisional :
    Memory.wf driven.out ∧ (nextOf (step driven)).isSome = true ∧ startNext driven = false ∧ 10 + 1 < driven.olen ∧
      finished.st = .done := by decide

theorem oneToGo_runInv : RunInv oneToGo := by constructor <;> decide
theorem allConsumed_runInv : RunInv allConsumed := by constructor <;> decide
theorem finished_runInv : RunInv finished := by constructor <;> decide
theorem afterSentinel_runInv : RunInv afterSentinel := by constructor <;> decide
theorem driven_runInv : RunInv driven := by constructor <;> decide

theorem oneToGo_foldInv : FoldInv oneToGo where
  composed := by simp [Composed, oneToGo]
  unpacker := by decide
  expander := ⟨State.started, rfl, rfl, rfl, rfl⟩

theorem allConsumed_foldInv : FoldInv allConsumed where
  composed := by simp [Composed, allConsumed]
  unpacker := by decide
  expander := ⟨{ State.started with out := [(0, 0x6C)] }, rfl, rfl, rfl, rfl⟩

theorem witness_everyStepKeepsTheInvariant : RunInv driven ∧ (nextOf (step driven)).isSome = true := ⟨driven_runInv, by decide⟩
theorem witness_everyStepKeepsTheFold :
    RunInv oneToGo ∧ FoldInv oneToGo ∧ (nextOf (step oneToGo)).isSome = true :=
  ⟨oneToGo_runInv, oneToGo_foldInv, by decide⟩
theorem witness_pairPopsTheSentinel : RunInv afterSentinel ∧ afterSentinel.prev = 0x21 := ⟨afterSentinel_runInv, rfl⟩
theorem witness_codesReceived :
    RunInv allConsumed ∧ FoldInv allConsumed ∧ allConsumed.act = .dormant ∧
      Config.maxExp * (allConsumed.n + allConsumed.n / Config.period) ≤ (⟨19, 1⟩ : Config.Open).outCap ∧
      allConsumed.n < 2 ^ (⟨19, 1⟩ : Config.Open).iposW :=
  ⟨allConsumed_runInv, allConsumed_foldInv, by decide, by decide, by decide⟩
theorem witness_exactlyOneCommand_step : RunInv oneToGo ∧ oneToGo.st = .run ∧ oneToGo.ipos < oneToGo.n :=
  ⟨oneToGo_runInv, by decide, by decide⟩
theorem witness_exactlyOneCommand_finish : RunInv allConsumed ∧ allConsumed.st = .run ∧ allConsumed.ipos = allConsumed.n :=
  ⟨allConsumed_runInv, by decide, by decide⟩
theorem witness_wholeDecode :
    ({ State.reset with host := decodeScript [0xEC] } : State).host = decodeScript [0xEC] ++ [] := by decide
theorem witness_dormantText : ¬ trigger <:+: ([0x21, 0x41, 0x78] : List Code) := by decide
theorem witness_textAfterTheTrigger : ¬ trigger <:+: (([0x61, 0x6C] : List Code) ++ trigger.dropLast) := by decide
theorem witness_matcher : ¬ trigger <:+: trigger.dropLast := by decide

end Sys2Proof.Tests
end

/-! # State, frames and invariants: 10_state

The memory relation that every operation keeps on OUT, the frame of the expander and of the unpacker, the expander's
part of the run invariant, and the statements of 10_state assembled from them. -/

/-! ### What an operation may do to OUT -/

namespace Sys2Proof.Machine.Memory

/-- `m'` came from `m` by one or more operations on OUT: it is longer, the canonical form is kept, and all bytes of `m`
but the last one still stand (10_state R17, 20_memory R33). -/
structure Lengthens (m m' : Memory) : Prop where
  longer : m.length < m'.length
  keepsWf : wf m → wf m'
  keepsBytes : (bytes m).dropLast <+: bytes m'

theorem lengthens_appendStr (m : Memory) {bs : List Byte} (hbs : bs ≠ []) : Lengthens m (appendStr m bs) where
  longer := by
    have := List.length_pos_of_ne_nil hbs
    simp; omega
  keepsWf h := wf_appendStr h bs
  keepsBytes := by
    rw [bytes_appendStr]
    exact (List.dropLast_prefix _).trans (List.prefix_append _ _)

/-- A pop is made up for by two bytes or more. -/
theorem lengthens_pop_appendStr (m : Memory) {bs : List Byte} (hbs : 2 ≤ bs.length) :
    Lengthens m (appendStr (pop m) bs) where
  longer := by simp; omega
  keepsWf h := wf_appendStr (wf_pop h) bs
  keepsBytes := by simp

theorem Lengthens.trans {m₁ m₂ m₃ : Memory} (h₁ : Lengthens m₁ m₂) (h₂ : Lengthens m₂ m₃) : Lengthens m₁ m₃ where
  longer := h₁.longer.trans h₂.longer
  keepsWf h := h₂.keepsWf (h₁.keepsWf h)
  keepsBytes := by
    have hlen : (bytes m₁).dropLast.length ≤ (bytes m₂).dropLast.length := by
      have := h₁.longer
      simp; omega
    have hdrop : (bytes m₁).dropLast <+: (bytes m₂).dropLast :=
      List.prefix_of_prefix_length_le h₁.keepsBytes (List.dropLast_prefix _) hlen
    exact hdrop.trans h₂.keepsBytes

/-- Below the last byte every address reads as before. -/
theorem Lengthens.read_eq {m m' : Memory} (h : Lengthens m m') (hwf : wf m) {a : Nat} (ha : a + 1 < m.length) :
    read m' a = read m a := by
  have hd : a < (bytes m).dropLast.length := by simp; omega
  obtain ⟨rest, hrest⟩ := h.keepsBytes
  rw [read_eq_bytes hwf, read_eq_bytes (h.keepsWf hwf), ← hrest, List.getElem?_append_left hd, List.getElem?_dropLast,
    if_pos (by simp; omega)]

end Sys2Proof.Machine.Memory

namespace Sys2Proof.Machine

/-! ### Lengths of the strings and of OUT -/

theorem dict1_length_le {c : Code} {bs : List Byte} (h : dict1 c = some bs) : bs.length ≤ 19 := by
  unfold dict1 at h
  split_ifs at h <;> cases h <;> decide

theorem dict2_length_le {c : Code} {bs : List Byte} (h : dict2 c = some bs) : bs.length ≤ 10 := by
  unfold dict2 at h
  split_ifs at h <;> cases h <;> decide

theorem prefixExpansion_olen {bs : List Byte} {s t : State} (h : prefixExpansion bs s = .next t) :
    t.olen = s.olen + bs.length := by
  rw [prefixExpansion_eq, Host.Outcome.next.injEq] at h
  subst h
  simp [State.length_out]

/-- A pair expansion that answers has popped a byte (42_expander_active R105 to R113). -/
theorem pairExpansion_olen {bs : List Byte} {s t : State} (h : pairExpansion bs s = .next t) :
    1 ≤ s.olen ∧ t.olen = s.olen - 1 + bs.length := by
  by_cases ho : s.out = []
  · simp [pairExpansion_of_nil bs ho] at h
  · rw [pairExpansion_of_ne_nil bs ho, Host.Outcome.next.injEq] at h
    subst h
    exact ⟨List.length_pos_of_ne_nil ho, by simp [State.length_out]⟩

/-- The nine strings of the pairs have 5 to 10 bytes (30_encoding R60). -/
theorem pairExpansion_olen_bounds {bs : List Byte} {s t : State} (hbs : 5 ≤ bs.length ∧ bs.length ≤ 10)
    (h : pairExpansion bs s = .next t) : s.olen + 4 ≤ t.olen ∧ t.olen ≤ s.olen + 9 := by
  have := pairExpansion_olen h
  omega

/-! ### Every operation lengthens OUT -/

theorem isExpander_decode_token (act : Mode) (prev c : Code) : isExpander (decode (.token act prev) c) = true := by
  simp only [decode]
  cases decodeToken act prev c <;> rfl

theorem expander_lengthens {i : Instr} {s t : State} (hi : isExpander i = true) (h : exec i s = .next t) :
    Memory.Lengthens s.out t.out := by
  obtain ⟨c, -, rfl⟩ | ⟨c, -, rfl⟩ | ⟨bs, hmem, rfl⟩ | ⟨bs, hmem, -, rfl⟩ := expander_cases hi h
  · exact Memory.lengthens_appendStr s.out (List.cons_ne_nil c [])
  · exact Memory.lengthens_appendStr s.out (List.cons_ne_nil c [])
  · have hne : bs ≠ [] := (by decide : ∀ row ∈ (_ : List (Instr × List Byte)), row.2 ≠ []) _ hmem
    exact Memory.lengthens_appendStr s.out hne
  · have hlen : 2 ≤ bs.length := (by decide : ∀ row ∈ (_ : List (Instr × List Byte)), 2 ≤ row.2.length) _ hmem
    exact Memory.lengthens_pop_appendStr s.out hlen

theorem expand_lengthens {c : Code} {s t : State} (h : expand c s = .next t) : Memory.Lengthens s.out t.out :=
  expander_lengthens (isExpander_decode_token s.act s.prev c) (expand_eq_exec_decode c s ▸ h)

theorem exec_lengthens {i : Instr} {s t : State} (h : exec i s = .next t) : Memory.Lengthens s.out t.out := by
  cases hi : isExpander i with
  | true => exact expander_lengthens hi h
  | false =>
    obtain ⟨c, u, low, bit, hu, rfl⟩ | ⟨c₁, c₂, u, w, hu, hw, rfl⟩ := unpacker_cases hi h
    · simpa using expand_lengthens hu
    · simpa using (expand_lengthens hu).trans (expand_lengthens hw)

/-! ### A sequence of codes -/

/-- What one run of the expander on any of the codes keeps, the whole sequence keeps. -/
theorem expandAll_preserves {P : State → Prop} {cs : List Code}
    (hstep : ∀ c ∈ cs, ∀ s t, expand c s = .next t → P s → P t) {s t : State} (h : expandAll cs s = .next t)
    (hs : P s) : P t := by
  induction cs generalizing s with
  | nil => exact Host.Outcome.next.inj h ▸ hs
  | cons c cs ih =>
    obtain ⟨u, hu, ht⟩ := (andThen_eq_next_iff _ _ _).1 h
    exact ih (fun d hd => hstep d (.tail c hd)) ht (hstep c (.head cs) s u hu hs)

/-- A sequence of codes writes PREV, ACT and OUT and nothing else (41_expander_dormant R90). -/
theorem expandAll_frame {cs : List Code} {s t : State} (h : expandAll cs s = .next t) :
    t = { s with prev := t.prev, act := t.act, out := t.out } := by
  refine expandAll_preserves (P := fun u => u = { s with prev := u.prev, act := u.act, out := u.out }) ?_ h rfl
  intro c _ u v huv hu
  rw [expand_frame huv, hu]

/-! ### The unpacker operation of a STEP -/

theorem toNat_carriedLow_lt {w : Nat} (c : BitVec w) : (carriedLow c).toNat < 2 ^ w := by
  rw [carriedLow, BitVec.toNat_setWidth]
  exact (Nat.mod_le _ _).trans_lt c.isLt

/-- What a packed byte at phase `k` does: the expander runs on the codes it completes, then LOW takes the carry-out and
BIT the next phase (40_unpacker R71, 10_state R19 b, c). -/
def ConsumesByte (k : Fin 7) (s t : State) : Prop :=
  ∃ cs w low bit, expandAll cs s = .next w ∧ t = w.setUnpacker low bit ∧
    bit.val = (k.val + 1) % 7 ∧ low.toNat < 2 ^ bit.val

theorem unpackOne_consumesByte {k : Fin 7} {w w' : Nat} {p : BitVec w} {c : BitVec w'} {next : Fin 7} {s t : State}
    (h : unpackOne k.val p c next s = .next t) (hk : next.val = (k.val + 1) % 7) (hc : w' = next.val) :
    ConsumesByte k s t := by
  obtain ⟨u, hu, rfl⟩ := (unpackOne_eq_next_iff _ p c next s t).1 h
  exact ⟨[firstCode k.val p s.low], u, carriedLow c, next, by simp [expandAll, hu], rfl, hk,
    hc ▸ toNat_carriedLow_lt c⟩

theorem execUnp6_consumesByte {p : BitVec 1} {c : BitVec 7} {s t : State} (h : execUnp6 p c s = .next t) :
    ConsumesByte 6 s t := by
  obtain ⟨u, w, hu, hw, rfl⟩ := (execUnp6_eq_next_iff p c s t).1 h
  exact ⟨[firstCode 6 p s.low, secondCode c], w, 0, 0, by simp [expandAll, hu, hw], rfl, rfl, by decide⟩

theorem exec_packed_consumesByte {k : Fin 7} {v : Byte} {s t : State} (h : exec (decode (.packed k) v) s = .next t) :
    ConsumesByte k s t := by
  match k, h with
  | 0, h => exact unpackOne_consumesByte h rfl rfl
  | 1, h => exact unpackOne_consumesByte h rfl rfl
  | 2, h => exact unpackOne_consumesByte h rfl rfl
  | 3, h => exact unpackOne_consumesByte h rfl rfl
  | 4, h => exact unpackOne_consumesByte h rfl rfl
  | 5, h => exact unpackOne_consumesByte h rfl rfl
  | 6, h => exact execUnp6_consumesByte h

/-! ### The latch -/

/-- The expander never clears ACT (10_state R14). -/
theorem expand_keeps_active {c : Code} {s t : State} (h : expand c s = .next t) (ha : s.act = .active) :
    t.act = .active := by
  obtain ⟨hd, -⟩ | ⟨-, bs, -, rfl⟩ | ⟨-, -, -, -, bs, -, rfl⟩ | ⟨-, -, -, rfl⟩ := expand_cases h
  · simp [ha] at hd
  · exact ha
  · exact ha
  · exact ha

/-- From State A the expander runs A.PASS (41_expander_dormant R91). -/
theorem expand_eq_next_of_dormant {c : Code} {s t : State} (h : expand c s = .next t) (hd : s.act = .dormant) :
    t = (s.setOut (Memory.append s.out c)).setAct (if trigger <:+ s.outBytes ++ [c] then .active else .dormant) := by
  rw [expand_dormant hd, execAPass_eq, hd, Host.Outcome.next.injEq] at h
  exact h.symm

/-- A sequence of codes never clears ACT. -/
theorem expandAll_keeps_active {cs : List Code} {s t : State} (h : expandAll cs s = .next t) (ha : s.act = .active) :
    t.act = .active :=
  expandAll_preserves (P := fun u => u.act = .active) (fun _ _ _ _ => expand_keeps_active) h ha

/-! ### The expander's part of the run invariant -/

/-- The clauses of `RunInv` that speak of ACT, PREV and OUT only (10_state R20, 20_memory R32). -/
structure ExpanderInv (act : Mode) (prev : Code) (out : Memory) : Prop where
  outWf : Memory.wf out
  dormant : act = .dormant → prev = 0 ∧ ¬ trigger <:+: Memory.bytes out
  active : act = .active → trigger <:+: Memory.bytes out
  lookback : prev ≠ 0 → act = .active ∧ (Memory.bytes out).getLast? = some prev

theorem RunInv.expanderInv {s : State} (h : RunInv s) : ExpanderInv s.act s.prev s.out :=
  ⟨h.outWf, h.dormant, h.active, h.lookback⟩

theorem expanderInv_start : ExpanderInv .dormant 0 [] where
  outWf := Memory.wf_nil
  dormant _ := ⟨rfl, by decide⟩
  active h := by cases h
  lookback h := absurd rfl h

/-- In State B with PREV = 0 nothing is asked of OUT's last byte. -/
theorem expanderInv_active_zero {out : Memory} (hwf : Memory.wf out) (ht : trigger <:+: Memory.bytes out) :
    ExpanderInv .active 0 out where
  outWf := hwf
  dormant h := by cases h
  active _ := ht
  lookback h := absurd rfl h

/-- A.PASS on text without the phrase: it sets the latch exactly where the phrase is now there (R91). -/
theorem expanderInv_aPass {out : Memory} (hwf : Memory.wf out) (hno : ¬ trigger <:+: Memory.bytes out) (c : Code) :
    ExpanderInv (if trigger <:+ Memory.bytes out ++ [c] then .active else .dormant) 0 (Memory.append out c) := by
  split
  case isTrue hsuffix =>
    exact expanderInv_active_zero (Memory.wf_append hwf c) (by simpa using hsuffix.isInfix)
  case isFalse hsuffix =>
    refine ⟨Memory.wf_append hwf c, fun _ => ⟨rfl, ?_⟩, nofun, fun h => absurd rfl h⟩
    rw [Memory.bytes_append, List.infix_concat_iff]
    exact not_or.2 ⟨hsuffix, hno⟩

/-- B.LIT after the phrase: PREV is the byte just appended (42_expander_active R118). -/
theorem expanderInv_bLit {out : Memory} (hwf : Memory.wf out) (ht : trigger <:+: Memory.bytes out) (c : Code) :
    ExpanderInv .active c (Memory.append out c) where
  outWf := Memory.wf_append hwf c
  dormant h := by cases h
  active _ := by
    rw [Memory.bytes_append]
    exact ht.trans (List.prefix_append _ _).isInfix
  lookback _ := ⟨rfl, by simp⟩

/-- An expansion after the phrase (42_expander_active R101 to R104). -/
theorem expanderInv_appendStr {out : Memory} (hwf : Memory.wf out) (ht : trigger <:+: Memory.bytes out)
    (bs : List Byte) : ExpanderInv .active 0 (Memory.appendStr out bs) :=
  expanderInv_active_zero (Memory.wf_appendStr hwf bs) (by
    rw [Memory.bytes_appendStr]
    exact ht.trans (List.prefix_append _ _).isInfix)

/-- The phrase does not end in the sentinel, so it survives the pop of one (42_expander_active R114). -/
theorem trigger_infix_dropLast {bs : List Byte} (ht : trigger <:+: bs) (hlast : bs.getLast? = some codeSentinel) :
    trigger <:+: bs.dropLast := by
  obtain ⟨init, rfl⟩ := List.getLast?_eq_some_iff.1 hlast
  rw [List.dropLast_concat]
  refine (List.infix_concat_iff.1 ht).resolve_left fun ⟨front, hfront⟩ => ?_
  have htail : (front ++ trigger).getLast? = some 0x74 := by simp [trigger]
  rw [hfront, List.getLast?_concat] at htail
  exact absurd htail (by decide)

/-- Every run of the expander keeps the expander's part of the invariant. -/
theorem expand_keeps_expanderInv {c : Code} {s t : State} (h : expand c s = .next t)
    (hs : ExpanderInv s.act s.prev s.out) : ExpanderInv t.act t.prev t.out := by
  obtain ⟨hd, rfl⟩ | ⟨ha, bs, -, rfl⟩ | ⟨ha, -, hp, -, bs, -, rfl⟩ | ⟨ha, -, -, rfl⟩ := expand_cases h
  · obtain ⟨hprev, hno⟩ := hs.dormant hd
    simp only [State.setAct_act, State.setAct_prev, State.setAct_out, State.setOut_prev, State.setOut_out, hd, hprev]
    exact expanderInv_aPass hs.outWf hno c
  · simpa [ha] using expanderInv_appendStr hs.outWf (hs.active ha) bs
  · obtain ⟨-, hlast⟩ := hs.lookback (by rw [hp]; decide)
    have ht : trigger <:+: Memory.bytes (Memory.pop s.out) := by
      rw [Memory.bytes_pop]
      exact trigger_infix_dropLast (hs.active ha) (hp ▸ hlast)
    simpa [ha] using expanderInv_appendStr (Memory.wf_pop hs.outWf) ht bs
  · simpa [ha] using expanderInv_bLit hs.outWf (hs.active ha) c

theorem expandAll_keeps_expanderInv {cs : List Code} {s t : State} (h : expandAll cs s = .next t)
    (hs : ExpanderInv s.act s.prev s.out) : ExpanderInv t.act t.prev t.out :=
  expandAll_preserves (P := fun u => ExpanderInv u.act u.prev u.out) (fun _ _ _ _ => expand_keeps_expanderInv) h hs

/-! ### The run invariant -/

/-- While a decode runs nothing is asked of `RunInv.idle` and `RunInv.finished`. -/
theorem runInv_of_run {s : State} (hst : s.st = .run) (hexp : ExpanderInv s.act s.prev s.out)
    (hin : Memory.wf s.input) (hle : s.ipos ≤ s.n) (hphase : s.bit.val = s.ipos % 7)
    (hlow : s.low.toNat < 2 ^ s.bit.val) : RunInv s where
  outWf := hexp.outWf
  inputWf := hin
  iposLe := hle
  phase := hphase
  lowBound := hlow
  dormant := hexp.dormant
  active := hexp.active
  lookback := hexp.lookback
  idle h := by simp [hst] at h
  finished h := by simp [hst] at h

theorem runInv_reset : RunInv State.reset where
  outWf := Memory.wf_nil
  inputWf := Memory.wf_nil
  iposLe := Nat.le_refl 0
  phase := rfl
  lowBound := Nat.zero_lt_one
  dormant := expanderInv_start.dormant
  active := expanderInv_start.active
  lookback := expanderInv_start.lookback
  idle _ := rfl
  finished h := by cases h

theorem foldInv_reset : FoldInv State.reset where
  composed _ := List.not_mem_nil
  unpacker := rfl
  expander := ⟨State.started, rfl, rfl, rfl, rfl⟩

theorem runInv_start (buffer : List Byte) (rest : List Command) :
    RunInv ⟨0, 0, 0, .dormant, [], 0, .run, Memory.ofBytes buffer, rest⟩ :=
  runInv_of_run rfl expanderInv_start (Memory.wf_ofBytes buffer) (Nat.zero_le _) rfl Nat.zero_lt_one

/-- A STEP in RUN: the byte read shows that IPOS is below N. -/
theorem runInv_step {s t : State} {rest : List Command} {v : Byte} (hs : RunInv s) (hst : s.st = .run)
    (hread : Memory.read s.input s.ipos = some v)
    (h : exec (decode (.packed s.bit) v) (s.setHost rest).advance = .next t) : RunInv t := by
  have hlt : s.ipos < s.n := (Memory.read_isSome_iff hs.inputWf _).1 (by simp [hread])
  obtain ⟨cs, w, low, bit, hw, rfl, hbit, hlow⟩ := exec_packed_consumesByte h
  have hexp : ExpanderInv w.act w.prev w.out := expandAll_keeps_expanderInv hw hs.expanderInv
  rw [expandAll_frame hw]
  refine runInv_of_run hst hexp hs.inputWf hlt ?_ hlow
  have := hs.phase
  simp; omega

theorem runInv_finish {s : State} (hs : RunInv s) (rest : List Command) (hn : s.ipos = s.n) :
    RunInv ((s.setHost rest).setSt .done) where
  outWf := hs.outWf
  inputWf := hs.inputWf
  iposLe := hs.iposLe
  phase := hs.phase
  lowBound := hs.lowBound
  dormant := hs.dormant
  active := hs.active
  lookback := hs.lookback
  idle h := by cases h
  finished _ := hn

theorem runInv_drive {c : Code} {s t : State} {rest : List Command} (hs : RunInv s) (hst : s.st = .run)
    (h : expand c (s.setHost rest) = .next t) : RunInv t := by
  have hexp := expand_keeps_expanderInv h hs.expanderInv
  rw [expand_frame h]
  exact runInv_of_run hst hexp hs.inputWf hs.iposLe hs.phase hs.lowBound

/-! ### The codes received and the size of OUT -/

theorem length_unpackFrom (low : Nat) {bit : Nat} (hbit : bit < 7) (bs : List Byte) :
    (unpackFrom low bit bs).length = bs.length + (bit + bs.length) / 7 := by
  induction bs generalizing low bit with
  | nil => simp [unpackFrom]; omega
  | cons v vs ih =>
    by_cases h6 : bit = 6
    · simp [unpackFrom, h6, ih]; omega
    · simp [unpackFrom, h6, ih _ (show bit + 1 < 7 by omega)]; omega

theorem length_unpack (bs : List Byte) : (unpack bs).length = bs.length + bs.length / 7 := by
  rw [unpack, length_unpackFrom 0 (by decide), Nat.zero_add]

/-- The payload moved up and or-ed with LOW stays below 128 (40_unpacker R72). -/
theorem payload_or_low_lt (v : Nat) {bit low : Nat} (hbit : bit < 7) (hlow : low < 2 ^ bit) :
    ((v &&& (0x7F >>> bit)) <<< bit) ||| low < 2 ^ 7 := by
  apply Nat.or_lt_two_pow
  · have hle : v &&& (0x7F >>> bit) ≤ 0x7F / 2 ^ bit := Nat.shiftRight_eq_div_pow 0x7F bit ▸ Nat.and_le_right
    calc (v &&& (0x7F >>> bit)) <<< bit = (v &&& (0x7F >>> bit)) * 2 ^ bit := Nat.shiftLeft_eq _ _
      _ ≤ 0x7F / 2 ^ bit * 2 ^ bit := Nat.mul_le_mul_right _ hle
      _ ≤ 0x7F := Nat.div_mul_le_self _ _
      _ < 2 ^ 7 := by decide
  · exact hlow.trans_le (Nat.pow_le_pow_right (by decide) hbit.le)

/-- The carry-out is as many bits as the next phase says (10_state R19 c). -/
theorem carryOut_lt (v : Byte) {bit : Nat} (hbit : bit < 7) : v.toNat >>> (7 - bit) < 2 ^ (bit + 1) := by
  rw [Nat.shiftRight_eq_div_pow, Nat.div_lt_iff_lt_mul (by positivity), ← Nat.pow_add]
  have h8 : bit + 1 + (7 - bit) = 8 := by omega
  rw [h8]
  exact v.isLt

theorem toNat_ofNat_lt {n : Nat} (h : n < 2 ^ 7) : (BitVec.ofNat 8 n).toNat < 128 := by
  simp; omega

theorem unpackFrom_lt {low bit : Nat} (hbit : bit < 7) (hlow : low < 2 ^ bit) (bs : List Byte) :
    ∀ c ∈ unpackFrom low bit bs, c.toNat < 128 := by
  induction bs generalizing low bit with
  | nil => simp [unpackFrom]
  | cons v vs ih =>
    have hcode := toNat_ofNat_lt (payload_or_low_lt v.toNat hbit hlow)
    have hcarry := carryOut_lt v hbit
    by_cases h6 : bit = 6
    · subst h6
      rw [unpackFrom, if_pos rfl]
      exact List.forall_mem_cons.2 ⟨hcode, List.forall_mem_cons.2 ⟨toNat_ofNat_lt hcarry, ih (by decide) (by decide)⟩⟩
    · rw [unpackFrom, if_neg h6]
      exact List.forall_mem_cons.2 ⟨hcode, ih (by omega) hcarry⟩

/-- Every code the unpacker emits is below 128 (40_unpacker R72). -/
theorem unpack_lt (bs : List Byte) : ∀ c ∈ unpack bs, c.toNat < 128 := unpackFrom_lt (by decide) (by decide) bs

/-- PREV is 0 or the code, or as it was in State A. -/
theorem expand_prev_lt {c : Code} {s t : State} (hc : c.toNat < 128) (h : expand c s = .next t)
    (hs : s.prev.toNat < 128) : t.prev.toNat < 128 := by
  obtain ⟨-, rfl⟩ | ⟨-, bs, -, rfl⟩ | ⟨-, -, -, -, bs, -, rfl⟩ | ⟨-, -, -, rfl⟩ := expand_cases h
  · exact hs
  · exact (by decide : (0 : Code).toNat < 128)
  · exact (by decide : (0 : Code).toNat < 128)
  · exact hc

/-- One code adds at most MAX_EXP bytes (10_state R19 e). -/
theorem expand_olen_le {c : Code} {s t : State} (h : expand c s = .next t) : t.olen ≤ s.olen + 19 := by
  obtain ⟨-, rfl⟩ | ⟨-, bs, hd, rfl⟩ | ⟨-, -, -, -, bs, hd, rfl⟩ | ⟨-, -, -, rfl⟩ := expand_cases h
  · simp [State.length_out]
  · have := dict1_length_le hd
    simp [State.length_out]; omega
  · have := dict2_length_le hd
    simp [State.length_out]; omega
  · simp [State.length_out]

theorem expandAll_olen_le {cs : List Code} {s t : State} (h : expandAll cs s = .next t) :
    t.olen ≤ s.olen + 19 * cs.length := by
  induction cs generalizing s with
  | nil => exact Host.Outcome.next.inj h ▸ Nat.le_refl _
  | cons c cs ih =>
    obtain ⟨u, hu, ht⟩ := (andThen_eq_next_iff _ _ _).1 h
    have hc := expand_olen_le hu
    have hcs := ih ht
    simp; omega

/-- A sequence that leaves the block dormant has been copied to OUT (41_expander_dormant R92). -/
theorem expandAll_outBytes_of_dormant {cs : List Code} {s t : State} (h : expandAll cs s = .next t)
    (ht : t.act = .dormant) : t.outBytes = s.outBytes ++ cs := by
  induction cs generalizing s with
  | nil => simp [Host.Outcome.next.inj h]
  | cons c cs ih =>
    obtain ⟨u, hu, hut⟩ := (andThen_eq_next_iff _ _ _).1 h
    have hd : s.act = .dormant := by
      cases ha : s.act with
      | dormant => rfl
      | active => simp [expandAll_keeps_active h ha] at ht
    have hub : u.outBytes = s.outBytes ++ [c] := by
      simp [expand_eq_next_of_dormant hu hd, State.bytes_out]
    rw [ih hut, hub, List.append_assoc, List.singleton_append]

theorem length_take_ipos {s : State} (hs : RunInv s) : ((Memory.bytes s.input).take s.ipos).length = s.ipos := by
  have := hs.iposLe
  rw [State.n_eq] at this
  simpa using this

/-! ### One step -/

/-- With a command waiting, a step runs that command (20_memory R40). -/
theorem step_of_host_cons {s : State} {cmd : Command} {rest : List Command} (h : s.host = cmd :: rest) :
    step s = runCommand cmd (s.setHost rest) := by
  simp only [step, h]

/-! ### The statements -/

/-- Settles O41: by the five things a step can do; the expander's clauses are kept code by code. -/
theorem everyStepKeepsTheInvariant : Obligations.EveryStepKeepsTheInvariant := by
  intro s t hs h
  obtain ⟨-, rfl⟩ | ⟨buffer, rest, -, rfl⟩ | ⟨rest, v, -, hst, hread, he⟩ | ⟨rest, -, -, hn, rfl⟩ |
    ⟨c, rest, -, hst, he⟩ := step_cases h
  · exact hs
  · exact runInv_start buffer rest
  · exact runInv_step hs hst hread he
  · exact runInv_finish hs rest hn
  · exact runInv_drive hs hst he

/-- Settles O40: every clause is about one fixed state, and no byte has been consumed. -/
theorem invariantsHoldAtReset : Obligations.InvariantsHoldAtReset := ⟨runInv_reset, foldInv_reset⟩

/-- Settles O30: by the four things a run of the expander can do, and code by code over a STEP. -/
theorem latchIsOneWay : Obligations.LatchIsOneWay := by
  refine ⟨fun c s t h => ⟨expand_keeps_active h, fun hd => ?_⟩, fun s t h hstart ha => ?_⟩
  · rw [expand_eq_next_of_dormant h hd]
    simp only [State.setAct_act, State.setAct_outBytes, State.setOut_outBytes, Memory.bytes_append, State.bytes_out]
    split <;> simp [*]
  · obtain ⟨-, rfl⟩ | ⟨buffer, rest, hh | hh, -⟩ | ⟨rest, v, -, -, -, he⟩ | ⟨rest, -, -, -, rfl⟩ |
      ⟨c, rest, -, -, he⟩ := step_cases h
    · exact ha
    · simp [startNext, hh] at hstart
    · simp [startNext, hh] at hstart
    · obtain ⟨cs, w, low, bit, hw, rfl, -⟩ := exec_packed_consumesByte he
      exact (State.setUnpacker_act w low bit).trans (expandAll_keeps_active hw ha)
    · exact ha
    · exact expand_keeps_active he ha

/-- Settles O33: by the relation `Memory.Lengthens` that every operation keeps on OUT. -/
theorem noOperationTouchesBytesBelowTheLast : Obligations.NoOperationTouchesBytesBelowTheLast := by
  intro i s t hwf h
  have hout := exec_lengthens h
  exact ⟨hout.longer, hout.keepsWf hwf, fun a ha => hout.read_eq hwf ha⟩

/-- Settles O38: by the five things a step can do; the expander writes neither IN nor IPOS. -/
theorem onlyAStepMovesTheInputPosition : Obligations.OnlyAStepMovesTheInputPosition := by
  intro s t h hstart
  obtain ⟨hh, rfl⟩ | ⟨buffer, rest, hh | hh, -⟩ | ⟨rest, v, hh, -, -, he⟩ | ⟨rest, hh, -, -, rfl⟩ |
    ⟨c, rest, hh, -, he⟩ := step_cases h
  · simp [hh]
  · simp [startNext, hh] at hstart
  · simp [startNext, hh] at hstart
  · obtain ⟨cs, w, low, bit, hw, rfl, -⟩ := exec_packed_consumesByte he
    rw [expandAll_frame hw]
    simp [hh]
  · simp [hh]
  · rw [expand_frame he]
    simp [hh]

/-- Settles O44: the state is the fold of the EPOS codes below 128 received so far, and one code adds at most 19 bytes. -/
theorem codesReceivedBoundTheOutput : Obligations.CodesReceivedBoundTheOutput := by
  intro s hs hfold
  obtain ⟨u, hu, hprev, hact, hout⟩ := hfold.expander
  have hepos : (unpack ((Memory.bytes s.input).take s.ipos)).length = s.epos := by
    rw [length_unpack, length_take_ipos hs]; rfl
  have hbytes : u.outBytes = s.outBytes := congrArg Memory.bytes hout
  have holen : s.olen ≤ 19 * s.epos := by
    have := expandAll_olen_le hu
    rw [hepos] at this
    simpa [State.olen, hout, State.started, State.reset] using this
  refine ⟨fun hd => ?_, ?_, holen, fun p hcap hn => ⟨?_, hs.iposLe.trans_lt hn⟩⟩
  · have hcopy : s.outBytes = unpack ((Memory.bytes s.input).take s.ipos) := by
      rw [← hbytes]
      exact expandAll_outBytes_of_dormant hu (hact.trans hd)
    exact ⟨hcopy, by rw [State.olen_eq_length_outBytes, hcopy, hepos]⟩
  · rw [← hprev]
    exact expandAll_preserves (P := fun w => w.prev.toNat < 128)
      (fun c hc _ _ => expand_prev_lt (unpack_lt _ c hc)) hu (by decide)
  · have hepos_le : s.epos ≤ s.n + s.n / Config.period :=
      Nat.add_le_add hs.iposLe (Nat.div_le_div_right hs.iposLe)
    exact (holen.trans (Nat.mul_le_mul_left 19 hepos_le)).trans hcap

/-- Settles O1: the values are those START and reset write. -/
theorem resetValues : Obligations.ResetValues := by
  refine ⟨⟨rfl, rfl, rfl, rfl, rfl, rfl, rfl, rfl⟩, fun s buffer rest hh => ?_, rfl, rfl⟩
  exact ⟨_, step_of_host_cons hh, rfl, rfl, rfl, rfl, rfl, rfl, rfl, rfl⟩

/-- Settles O34: by the length of the string each operation appends. -/
theorem olenGrowsByTheStatedAmounts : Obligations.OlenGrowsByTheStatedAmounts := by
  intro s t i h
  refine ⟨?_, ?_, ?_, ?_, ?_, fun hmem => ?_⟩
  · rintro ⟨c, rfl | rfl⟩
    all_goals
      obtain rfl := Host.Outcome.next.inj h
      simp [appendCode, State.length_out]
  · rintro rfl; exact prefixExpansion_olen (bs := strDriver) h
  · rintro rfl; exact prefixExpansion_olen (bs := strIokit) h
  · rintro rfl; exact prefixExpansion_olen (bs := strSecurity) h
  · rintro rfl; exact prefixExpansion_olen (bs := strApplePrefix) h
  · simp only [List.mem_cons, List.not_mem_nil, or_false] at hmem
    obtain rfl | rfl | rfl | rfl | rfl | rfl | rfl | rfl | rfl := hmem
    · exact pairExpansion_olen_bounds (bs := strApple) (by decide) h
    · exact pairExpansion_olen_bounds (bs := strAction) (by decide) h
    · exact pairExpansion_olen_bounds (bs := strBluetooth) (by decide) h
    · exact pairExpansion_olen_bounds (bs := strController) (by decide) h
    · exact pairExpansion_olen_bounds (bs := strFamily) (by decide) h
    · exact pairExpansion_olen_bounds (bs := strIntel) (by decide) h
    · exact pairExpansion_olen_bounds (bs := strProfile) (by decide) h
    · exact pairExpansion_olen_bounds (bs := strStorage) (by decide) h
    · exact pairExpansion_olen_bounds (bs := strAppleUsb) (by decide) h

end Sys2Proof.Machine

/-! # The spaces and the packed stream: 20_memory

OUT per STEP, the packed buffer as one little-endian number, and the statements of 20_memory assembled from them. -/

namespace Sys2Proof.Machine

/-! ### OUT at one STEP -/

theorem isExpander_decode_packed (k : Fin 7) (v : Byte) : isExpander (decode (.packed k) v) = false := by
  match k with
  | 0 | 1 | 2 | 3 | 4 | 5 | 6 => rfl

/-- An unpacker operation emits two codes at most, of at most MAX_EXP bytes each (20_memory R39). -/
theorem unpacker_olen_le {i : Instr} {s t : State} (hi : isExpander i = false) (h : exec i s = .next t) :
    t.olen ≤ s.olen + 38 := by
  obtain ⟨c, u, low, bit, hu, rfl⟩ | ⟨c₁, c₂, u, w, hu, hw, rfl⟩ := unpacker_cases hi h
  · have := expand_olen_le hu
    simp; omega
  · have h₁ := expand_olen_le hu
    have h₂ := expand_olen_le hw
    simp; omega

/-- A STEP that answers ran an unpacker operation. -/
theorem step_eq_exec_unpacker {s t : State} {rest : List Command} (hh : s.host = .step :: rest)
    (h : step s = .next t) : ∃ i, isExpander i = false ∧ exec i (s.setHost rest).advance = .next t := by
  rw [step_of_host_cons hh] at h
  obtain ⟨-, v, -, he⟩ := cmdStep_eq_next h
  exact ⟨_, isExpander_decode_packed _ v, he⟩

/-! ### The phase after a run of bytes -/

/-- The phase counts the bytes modulo 7, and LOW stays below 2^BIT (10_state R19 b, c). -/
theorem unpackerAfter_phase {low bit : Nat} (hbit : bit < 7) (hlow : low < 2 ^ bit) (bs : List Byte) :
    (unpackerAfter low bit bs).2 = (bit + bs.length) % 7 ∧
      (unpackerAfter low bit bs).1 < 2 ^ (unpackerAfter low bit bs).2 := by
  induction bs generalizing low bit with
  | nil => exact ⟨(Nat.mod_eq_of_lt hbit).symm, hlow⟩
  | cons v vs ih =>
    by_cases h6 : bit = 6
    · subst h6
      obtain ⟨hphase, hbound⟩ := ih (low := 0) (bit := 0) (by decide) (by decide)
      rw [unpackerAfter, if_pos rfl]
      refine ⟨?_, hbound⟩
      simp [hphase]; omega
    · obtain ⟨hphase, hbound⟩ := ih (show bit + 1 < 7 by omega) (carryOut_lt v hbit)
      rw [unpackerAfter, if_neg h6]
      refine ⟨?_, hbound⟩
      simp [hphase]; omega

/-- Complete groups return the unpacker to LOW = 0 and BIT = 0 (20_memory R36). -/
theorem unpackerAfter_of_length_mod {bs : List Byte} (h : bs.length % 7 = 0) : unpackerAfter 0 0 bs = (0, 0) := by
  obtain ⟨hphase, hbound⟩ := unpackerAfter_phase (low := 0) (bit := 0) (by decide) (by decide) bs
  rw [Nat.zero_add, h] at hphase
  rw [hphase] at hbound
  exact Prod.ext (Nat.lt_one_iff.1 hbound) hphase

theorem unpackFrom_append (low bit : Nat) (a b : List Byte) :
    unpackFrom low bit (a ++ b) =
      unpackFrom low bit a ++ unpackFrom (unpackerAfter low bit a).1 (unpackerAfter low bit a).2 b := by
  induction a generalizing low bit with
  | nil => rfl
  | cons v vs ih =>
    by_cases h6 : bit = 6
    · simp [unpackFrom, unpackerAfter, h6, ih]
    · simp [unpackFrom, unpackerAfter, h6, ih]

/-- After complete groups the rest is unpacked as from the start. -/
theorem unpack_append_of_length_mod {a : List Byte} (h : a.length % 7 = 0) (b : List Byte) :
    unpack (a ++ b) = unpack a ++ unpack b := by
  rw [unpack, unpackFrom_append, unpackerAfter_of_length_mod h]
  rfl

/-! ### The codes as pieces of one number -/

/-- Seven consecutive bits of the number `g` from bit `7 * j` on: `streamCode` for any number (20_memory R35). -/
def numberCode (g j : Nat) : Code := BitVec.ofNat 8 ((g >>> (7 * j)) &&& 0x7F)

theorem streamCode_eq_numberCode (bs : List Byte) : streamCode bs = numberCode (streamNumber bs) := rfl

theorem numberCode_zero (g : Nat) : numberCode g 0 = BitVec.ofNat 8 (g % 128) :=
  congrArg (BitVec.ofNat 8) (Nat.and_two_pow_sub_one_eq_mod g 7)

theorem numberCode_succ (g j : Nat) : numberCode g (j + 1) = numberCode (g / 128) j := by
  have hshift : g >>> (7 * (j + 1)) = (g / 128) >>> (7 * j) := by
    rw [Nat.mul_succ, Nat.add_comm, Nat.shiftRight_add, Nat.shiftRight_eq_div_pow g 7]
  rw [numberCode, hshift, numberCode]

/-- Taking the lowest code off a number leaves the codes of its quotient by 128. -/
theorem map_numberCode_range_succ (g n : Nat) :
    (List.range (n + 1)).map (numberCode g) =
      BitVec.ofNat 8 (g % 128) :: (List.range n).map (numberCode (g / 128)) := by
  rw [List.range_succ_eq_map, List.map_cons, numberCode_zero, List.map_map]
  exact congrArg _ (List.map_congr_left fun j _ => numberCode_succ g j)

/-- The number not yet emitted: the `bit` carried bits of LOW below the bits of the coming bytes. -/
def pendingNumber (low bit : Nat) (bs : List Byte) : Nat := low + 2 ^ bit * streamNumber bs

theorem pendingNumber_start (bs : List Byte) : pendingNumber 0 0 bs = streamNumber bs := by
  simp [pendingNumber]

/-- The first code as a sum: the payload's low bits above LOW (40_unpacker R72). -/
theorem payload_or_low_eq (v : Nat) {bit low : Nat} (hbit : bit < 7) (hlow : low < 2 ^ bit) :
    ((v &&& (0x7F >>> bit)) <<< bit) ||| low = low + 2 ^ bit * (v % 2 ^ (7 - bit)) := by
  have hmask : 0x7F >>> bit = 2 ^ (7 - bit) - 1 := (by decide : ∀ b < 7, 0x7F >>> b = 2 ^ (7 - b) - 1) bit hbit
  rw [hmask, Nat.and_two_pow_sub_one_eq_mod, ← Nat.shiftLeft_add_eq_or_of_lt hlow, Nat.shiftLeft_eq, Nat.add_comm,
    Nat.mul_comm]

/-- Seven bits of the pending number end inside the byte at `7 - bit`. -/
theorem two_pow_phase_mul {bit : Nat} (hbit : bit < 7) : 2 ^ bit * 2 ^ (7 - bit) = 128 := by
  rw [← Nat.pow_add, Nat.add_sub_cancel' hbit.le]

/-- The byte's bits above `7 - bit` and those of the later bytes. -/
theorem byte_weight_eq {bit : Nat} (hbit : bit < 7) (n : Nat) : 256 * n = 2 ^ (7 - bit) * (2 ^ (bit + 1) * n) := by
  have h8 : 7 - bit + (bit + 1) = 8 := by omega
  rw [← Nat.mul_assoc, ← Nat.pow_add, h8]

/-- The lowest seven bits of the pending number are the code the next byte completes. -/
theorem pendingNumber_cons_mod {low bit : Nat} (hbit : bit < 7) (hlow : low < 2 ^ bit) (v : Byte) (vs : List Byte) :
    pendingNumber low bit (v :: vs) % 128 = ((v.toNat &&& (0x7F >>> bit)) <<< bit) ||| low := by
  rw [payload_or_low_eq _ hbit hlow, pendingNumber, ← two_pow_phase_mul hbit, Nat.mod_mul, Nat.add_mul_mod_self_left,
    Nat.mod_eq_of_lt hlow, Nat.add_mul_div_left _ _ (by positivity), Nat.div_eq_of_lt hlow, Nat.zero_add, streamNumber,
    byte_weight_eq hbit, Nat.add_mul_mod_self_left]

/-- What is pending after the next byte: its carry-out below the later bytes, at the next phase. -/
theorem pendingNumber_cons_div {low bit : Nat} (hbit : bit < 7) (hlow : low < 2 ^ bit) (v : Byte) (vs : List Byte) :
    pendingNumber low bit (v :: vs) / 128 = pendingNumber (v.toNat >>> (7 - bit)) (bit + 1) vs := by
  rw [pendingNumber, ← two_pow_phase_mul hbit, ← Nat.div_div_eq_div_mul, Nat.add_mul_div_left _ _ (by positivity),
    Nat.div_eq_of_lt hlow, Nat.zero_add, streamNumber, byte_weight_eq hbit, Nat.add_mul_div_left _ _ (by positivity),
    ← Nat.shiftRight_eq_div_pow, pendingNumber]

/-- A carry-out of seven bits is a code of its own (40_unpacker R79). -/
theorem pendingNumber_seven {low : Nat} (hlow : low < 2 ^ 7) (bs : List Byte) :
    pendingNumber low 7 bs % 128 = low ∧ pendingNumber low 7 bs / 128 = pendingNumber 0 0 bs := by
  rw [pendingNumber_start, pendingNumber]
  omega

/-- From any phase the codes are the seven-bit pieces of the pending number, lowest first. -/
theorem unpackFrom_eq_map_numberCode {low bit : Nat} (hbit : bit < 7) (hlow : low < 2 ^ bit) (bs : List Byte) :
    unpackFrom low bit bs =
      (List.range (bs.length + (bit + bs.length) / 7)).map (numberCode (pendingNumber low bit bs)) := by
  induction bs generalizing low bit with
  | nil => simp [unpackFrom, Nat.div_eq_of_lt hbit]
  | cons v vs ih =>
    have hcarry := carryOut_lt v hbit
    by_cases h6 : bit = 6
    · subst h6
      have hcount : (v :: vs).length + (6 + (v :: vs).length) / 7 = vs.length + (0 + vs.length) / 7 + 1 + 1 := by
        simp; omega
      obtain ⟨hsecond, hrest⟩ := pendingNumber_seven hcarry vs
      rw [unpackFrom, if_pos rfl, hcount, map_numberCode_range_succ, map_numberCode_range_succ,
        pendingNumber_cons_mod hbit hlow, pendingNumber_cons_div hbit hlow, hsecond, hrest,
        ih (by decide) (by decide)]
    · have hcount : (v :: vs).length + (bit + (v :: vs).length) / 7 = vs.length + (bit + 1 + vs.length) / 7 + 1 := by
        simp; omega
      rw [unpackFrom, if_neg h6, hcount, map_numberCode_range_succ, pendingNumber_cons_mod hbit hlow,
        pendingNumber_cons_div hbit hlow, ih (by omega) hcarry]

/-! ### The statements -/

/-- Settles O19: before the first byte nothing is carried, so the pending number is the whole buffer's. -/
theorem codesAreTheBitStream : Obligations.CodesAreTheBitStream := by
  intro bs
  rw [unpack, unpackFrom_eq_map_numberCode (by decide) (by decide), pendingNumber_start, streamCode_eq_numberCode,
    Nat.zero_add]

/-- Settles O18: the groups before leave LOW and BIT at 0, so the group is unpacked as a buffer of its own. -/
theorem groupsAreIndependent : Obligations.GroupsAreIndependent := by
  intro before group after hbefore hgroup
  have hboth : (before ++ group).length % 7 = 0 := by
    rw [List.length_append]; omega
  have hcount : (unpack before).length = 8 * (before.length / 7) := by
    rw [length_unpack]; omega
  have hcodes : unpack group = (List.range 8).map (streamCode group) := by
    rw [codesAreTheBitStream group, hgroup]
  refine ⟨unpackerAfter_of_length_mod hboth, ?_⟩
  rw [unpack_append_of_length_mod hboth, unpack_append_of_length_mod hbefore, List.append_assoc,
    List.drop_left' hcount, hcodes, List.take_left' (by simp)]

/-- Settles O35: a STEP runs an unpacker operation, which lengthens OUT and emits two codes at most. -/
theorem oneStepWritesAtMostThirtyEightBytes : Obligations.OneStepWritesAtMostThirtyEightBytes := by
  intro s t rest hh h
  obtain ⟨i, hi, he⟩ := step_eq_exec_unpacker hh h
  have hle := unpacker_olen_le hi he
  exact ⟨(exec_lengthens he).longer, hle⟩

/-- Settles O25: each of the nine begins with the pop. -/
theorem pairOperationsNeedAByteToPop : Obligations.PairOperationsNeedAByteToPop := by
  intro s ho i hi
  simp only [List.mem_cons, List.not_mem_nil, or_false] at hi
  obtain rfl | rfl | rfl | rfl | rfl | rfl | rfl | rfl | rfl := hi
  all_goals exact pairExpansion_of_nil _ ho

end Sys2Proof.Machine

/-! # Encodings: 30_encoding

The two layers of the decoder, one lemma per way a byte is read; the opcode table and a table word against the decoder;
text of State B as forms; and the statements of 30_encoding assembled from them. -/

namespace Sys2Proof

/-! ### The packed layer (R51) -/

theorem toNat_payload (v : Byte) (n : Nat) : (v.extractLsb' 0 n).toNat = v.toNat % 2 ^ n := by
  rw [BitVec.extractLsb'_toNat, Nat.shiftRight_zero]

theorem toNat_carryOut (v : Byte) {start len : Nat} (h : start + len = 8) :
    (v.extractLsb' start len).toNat = v.toNat / 2 ^ start := by
  have hlt : v.toNat / 2 ^ start < 2 ^ len := by
    rw [Nat.div_lt_iff_lt_mul (by positivity), ← Nat.pow_add, Nat.add_comm len, h]
    exact v.isLt
  rw [BitVec.extractLsb'_toNat, Nat.shiftRight_eq_div_pow, Nat.mod_eq_of_lt hlt]

/-- The two fields of a byte put together again are the byte. -/
theorem carryOut_append_payload (v : Byte) {start len : Nat} (h : len + start = 8) :
    v.extractLsb' start len ++ v.extractLsb' 0 start = v.cast h.symm := by
  have hlt := v.isLt
  rw [BitVec.extractLsb'_append_extractLsb'_eq_extractLsb' (Nat.zero_add start).symm]
  apply BitVec.eq_of_toNat_eq
  simpa [h] using hlt

theorem encode_decodePacked (k : Fin 7) (v : Byte) : encode (decodePacked k v) = v := by
  match k with
  | 0 | 1 | 2 | 3 | 4 | 5 | 6 => exact carryOut_append_payload v rfl

theorem wellFormed_decodePacked (k : Fin 7) (v : Byte) : (decodePacked k v).wellFormed = true := by
  match k with
  | 0 | 1 | 2 | 3 | 4 | 5 | 6 => rfl

theorem fits_decodePacked (k : Fin 7) (v : Byte) : (decodePacked k v).fits (.packed k) = true := by
  match k with
  | 0 | 1 | 2 | 3 | 4 | 5 | 6 => rfl

/-! ### The token layer (R54, R56) -/

/-- The single-character triggers and their operations (R54 class PFX). -/
def prefixCodes : List (Code × TokenOp) :=
  [(codeGt, .bPfxGt), (codeBar, .bPfxBar), (codeDlr, .bPfxDlr), (codeAt, .bPfxAt)]

/-- The second codes of the pairs and their operations (R54 class SEC). -/
def secondCodes : List (Code × TokenOp) :=
  [(codeA, .bPairA), (codeLowerA, .bPairLowerA), (codeB, .bPairB), (codeC, .bPairC), (codeF, .bPairF),
    (codeI, .bPairI), (codeP, .bPairP), (codeS, .bPairS), (codeU, .bPairU)]

theorem mem_prefixCodes_of_decodePrefix {c : Code} {op : TokenOp} (h : decodePrefix c = some op) :
    (c, op) ∈ prefixCodes := by
  unfold decodePrefix at h
  split_ifs at h <;> cases h <;> subst_vars <;> decide

theorem mem_secondCodes_of_decodeSecond {c : Code} {op : TokenOp} (h : decodeSecond c = some op) :
    (c, op) ∈ secondCodes := by
  unfold decodeSecond at h
  split_ifs at h <;> cases h <;> subst_vars <;> decide

theorem isPfx_eq_false_iff (c : Code) : isPfx c = false ↔ decodePrefix c = none := by
  constructor
  · intro h
    simp only [isPfx, Bool.or_eq_false_iff, beq_eq_false_iff_ne, and_assoc] at h
    simp [decodePrefix, h]
  · intro h
    unfold decodePrefix at h
    split_ifs at h
    simp [isPfx, *]

theorem isSec_eq_false_iff (c : Code) : isSec c = false ↔ decodeSecond c = none := by
  constructor
  · intro h
    simp only [isSec, Bool.or_eq_false_iff, beq_eq_false_iff_ne, and_assoc] at h
    simp [decodeSecond, h]
  · intro h
    unfold decodeSecond at h
    split_ifs at h
    simp [isSec, *]

/-- A single-character trigger is read whatever PREV is (R56). -/
theorem decodeToken_prefix {c : Code} {op : TokenOp} (h : decodePrefix c = some op) (prev : Code) :
    decodeToken .active prev c = op := by
  simp only [decodeToken, h]

theorem decodeToken_pair {c : Code} {op : TokenOp} (h₁ : decodePrefix c = none) (h₂ : decodeSecond c = some op) :
    decodeToken .active codeSentinel c = op := by
  simp only [decodeToken, h₁, h₂, if_pos, Option.getD_some]

theorem decodeToken_literal {prev c : Code} (h₁ : decodePrefix c = none)
    (h₂ : prev = codeSentinel → decodeSecond c = none) : decodeToken .active prev c = .bLit c := by
  simp only [decodeToken, h₁]
  split
  case isTrue hprev => rw [h₂ hprev, Option.getD_none]
  case isFalse => rfl

/-- The lookback matters to second codes only. -/
theorem decodeToken_of_not_second {c : Code} (h : decodeSecond c = none) (prev prev' : Code) :
    decodeToken .active prev c = decodeToken .active prev' c := by
  simp only [decodeToken, h, Option.getD_none, ite_self]

/-- The four ways a code is read (R56). -/
theorem decodeToken_cases (act : Mode) (prev c : Code) :
    (act = .dormant ∧ decodeToken act prev c = .aPass c) ∨
    (act = .active ∧ (c, decodeToken act prev c) ∈ prefixCodes) ∨
    (act = .active ∧ prev = codeSentinel ∧ (c, decodeToken act prev c) ∈ secondCodes) ∨
    (act = .active ∧ decodePrefix c = none ∧ (prev = codeSentinel → decodeSecond c = none) ∧
      decodeToken act prev c = .bLit c) := by
  cases act with
  | dormant => exact .inl ⟨rfl, rfl⟩
  | active =>
    cases h₁ : decodePrefix c with
    | some op => exact .inr (.inl ⟨rfl, decodeToken_prefix h₁ prev ▸ mem_prefixCodes_of_decodePrefix h₁⟩)
    | none =>
      by_cases h₂ : prev = codeSentinel → decodeSecond c = none
      · exact .inr (.inr (.inr ⟨rfl, rfl, h₂, decodeToken_literal h₁ h₂⟩))
      · obtain ⟨rfl, hsome⟩ := Classical.not_imp.1 h₂
        obtain ⟨op, hop⟩ := Option.ne_none_iff_exists'.1 hsome
        exact .inr (.inr (.inl ⟨rfl, rfl, decodeToken_pair h₁ hop ▸ mem_secondCodes_of_decodeSecond hop⟩))

/-! ### The contexts of the rows -/

theorem isPacked_iff (k : Fin 7) (ctx : Context) : ctx.isPacked k = true ↔ ctx = .packed k := by
  cases ctx <;> simp [Context.isPacked]

theorem isDormant_iff (ctx : Context) : ctx.isDormant = true ↔ ∃ prev, ctx = .token .dormant prev := by
  cases ctx <;> simp [Context.isDormant]

theorem isActive_iff (ctx : Context) : ctx.isActive = true ↔ ∃ prev, ctx = .token .active prev := by
  cases ctx <;> simp [Context.isActive]

theorem isArmed_iff (ctx : Context) : ctx.isArmed = true ↔ ctx = .token .active codeSentinel := by
  cases ctx <;> simp [Context.isArmed]

theorem decode_encode_literal {c : Code} {ctx : Context} (hwf : (Instr.bLit c).wellFormed = true)
    (hfits : (Instr.bLit c).fits ctx = true) : decode ctx (encode (.bLit c)) = .bLit c := by
  simp only [Instr.wellFormed, Bool.not_eq_true'] at hwf
  simp only [Instr.fits, Bool.and_eq_true, Bool.not_eq_true', Bool.and_eq_false_imp] at hfits
  obtain ⟨hactive, hsecond⟩ := hfits
  obtain ⟨prev, rfl⟩ := (isActive_iff ctx).1 hactive
  have h₂ : prev = codeSentinel → decodeSecond c = none := by
    rintro rfl
    exact (isSec_eq_false_iff c).1 (hsecond rfl)
  exact congrArg TokenOp.toInstr (decodeToken_literal ((isPfx_eq_false_iff c).1 hwf) h₂)

theorem encode_fits_of_mem_prefixCodes {c : Code} {op : TokenOp} (h : (c, op) ∈ prefixCodes) (prev : Code) :
    encode op.toInstr = c ∧ op.toInstr.wellFormed = true ∧ op.toInstr.fits (.token .active prev) = true := by
  simp only [prefixCodes, List.mem_cons, Prod.mk.injEq, List.not_mem_nil, or_false] at h
  obtain ⟨rfl, rfl⟩ | ⟨rfl, rfl⟩ | ⟨rfl, rfl⟩ | ⟨rfl, rfl⟩ := h
  all_goals exact ⟨rfl, rfl, rfl⟩

theorem encode_fits_of_mem_secondCodes {c : Code} {op : TokenOp} (h : (c, op) ∈ secondCodes) :
    encode op.toInstr = c ∧ op.toInstr.wellFormed = true ∧ op.toInstr.fits (.token .active codeSentinel) = true :=
  (by decide : ∀ row ∈ secondCodes, encode row.2.toInstr = row.1 ∧ row.2.toInstr.wellFormed = true ∧
    row.2.toInstr.fits (.token .active codeSentinel) = true) _ h

theorem wellFormed_literal {c : Code} (h : decodePrefix c = none) : (Instr.bLit c).wellFormed = true := by
  simp [Instr.wellFormed, (isPfx_eq_false_iff c).2 h]

theorem fits_literal {prev c : Code} (h : prev = codeSentinel → decodeSecond c = none) :
    (Instr.bLit c).fits (.token .active prev) = true := by
  simp only [Instr.fits, Context.isActive, Context.isArmed, beq_self_eq_true, Bool.true_and, Bool.not_eq_true',
    Bool.and_eq_false_imp, beq_iff_eq]
  exact fun hprev => (isSec_eq_false_iff c).2 (h hprev)

/-! ### The selection as one chain of tests (R56) -/

/-- The tests for a single-character trigger, in the rule's order (R56), before any further selection `other`. -/
theorem select_prefix (c : Code) (other : Instr) :
    (decodePrefix c).elim other TokenOp.toInstr =
      if c = 0x3E then .bPfxGt
      else if c = 0x7C then .bPfxBar
      else if c = 0x24 then .bPfxDlr
      else if c = 0x40 then .bPfxAt
      else other := by
  simp only [decodePrefix, apply_ite (Option.elim · other TokenOp.toInstr)]
  rfl

/-- The tests for the second code of a pair, in the rule's order. -/
theorem select_second (c : Code) (other : Instr) :
    (decodeSecond c).elim other TokenOp.toInstr =
      if c = 0x41 then .bPairA
      else if c = 0x61 then .bPairLowerA
      else if c = 0x42 then .bPairB
      else if c = 0x43 then .bPairC
      else if c = 0x46 then .bPairF
      else if c = 0x49 then .bPairI
      else if c = 0x50 then .bPairP
      else if c = 0x53 then .bPairS
      else if c = 0x55 then .bPairU
      else other := by
  simp only [decodeSecond, apply_ite (Option.elim · other TokenOp.toInstr)]
  rfl

theorem decode_active (prev c : Code) :
    decode (.token .active prev) c =
      (decodePrefix c).elim
        (if prev = codeSentinel then (decodeSecond c).elim (.bLit c) TokenOp.toInstr else .bLit c)
        TokenOp.toInstr := by
  simp only [decode, decodeToken]
  cases decodePrefix c with
  | some op => rfl
  | none =>
    by_cases hprev : prev = codeSentinel
    · simp only [if_pos hprev]
      cases decodeSecond c <;> rfl
    · simp only [if_neg hprev]
      rfl

end Sys2Proof

namespace Sys2Proof.Machine

/-! ### The opcode table (R65) -/

/-- A token operation read back from its instruction. -/
def tokenOpOf : Instr → Option TokenOp
  | .aPass c => some (.aPass c)
  | .bPfxGt => some .bPfxGt
  | .bPfxBar => some .bPfxBar
  | .bPfxDlr => some .bPfxDlr
  | .bPfxAt => some .bPfxAt
  | .bPairA => some .bPairA
  | .bPairLowerA => some .bPairLowerA
  | .bPairB => some .bPairB
  | .bPairC => some .bPairC
  | .bPairF => some .bPairF
  | .bPairI => some .bPairI
  | .bPairP => some .bPairP
  | .bPairS => some .bPairS
  | .bPairU => some .bPairU
  | .bLit c => some (.bLit c)
  | .unp0 _ _ | .unp1 _ _ | .unp2 _ _ | .unp3 _ _ | .unp4 _ _ | .unp5 _ _ | .unp6 _ _ => none

theorem tokenOpOf_toInstr (op : TokenOp) : tokenOpOf op.toInstr = some op := by
  cases op <;> rfl

/-- Different token operations are different instructions. -/
theorem toInstr_inj {op op' : TokenOp} : op.toInstr = op'.toInstr ↔ op = op' := by
  refine ⟨fun h => ?_, congrArg _⟩
  have hback := congrArg tokenOpOf h
  rwa [tokenOpOf_toInstr, tokenOpOf_toInstr, Option.some.injEq] at hback

theorem applies_iff (r : TokenRow) (act : Mode) (prev c : Code) :
    r.applies act prev c = true ↔ r.act = act ∧ (r.prev = none ∨ r.prev = some prev) ∧ c &&& r.mask = r.code := by
  simp [TokenRow.applies, and_assoc]

/-- The table selects one operation at most: of two first rows each would come before the other. -/
theorem tableSelects_unique {act : Mode} {prev c : Code} {op op' : TokenOp} (h : tableSelects act prev c op)
    (h' : tableSelects act prev c op') : op = op' := by
  obtain ⟨r, hmem, happ, rfl, hfirst⟩ := h
  obtain ⟨r', hmem', happ', rfl, hfirst'⟩ := h'
  obtain rfl | hlt := hfirst r' hmem' happ'
  · rfl
  obtain rfl | hlt' := hfirst' r hmem happ
  · rfl
  exact absurd hlt hlt'.asymm

/-- The row of A.PASS. -/
def passRow : TokenRow := ⟨"A.PASS", 0x00, 0x00, .dormant, none, 1, .aPass 0⟩

theorem eq_passRow_of_dormant : ∀ r ∈ tokenRows, r.act = .dormant → r = passRow := by decide

theorem tableSelects_dormant (prev c : Code) : tableSelects .dormant prev c (.aPass c) := by
  refine ⟨passRow, by decide, by simp [applies_iff, passRow], rfl, fun r hmem happ => .inl ?_⟩
  obtain ⟨hact, -⟩ := (applies_iff r _ _ _).1 happ
  exact eq_passRow_of_dormant r hmem hact

/-- A row that matches the code alone comes before all rows that match it, whatever PREV is. -/
theorem tableSelects_prefix {c : Code} {op : TokenOp} (h : (c, op) ∈ prefixCodes) (prev : Code) :
    tableSelects .active prev c op := by
  obtain ⟨r, hmem, hact, hprev, hcode, hop, hfirst⟩ :=
    (by decide : ∀ row ∈ prefixCodes, ∃ r ∈ tokenRows, r.act = .active ∧ r.prev = none ∧ row.1 &&& r.mask = r.code ∧
      row.2 = r.operation row.1 ∧ ∀ r' ∈ tokenRows, r'.act = .active → row.1 &&& r'.mask = r'.code →
        r' = r ∨ r.priority < r'.priority) _ h
  refine ⟨r, hmem, (applies_iff ..).2 ⟨hact, .inl hprev, hcode⟩, hop, fun r' hmem' happ' => ?_⟩
  obtain ⟨hact', -, hcode'⟩ := (applies_iff ..).1 happ'
  exact hfirst r' hmem' hact' hcode'

theorem tableSelects_pair {c : Code} {op : TokenOp} (h : (c, op) ∈ secondCodes) :
    tableSelects .active codeSentinel c op :=
  (by decide : ∀ row ∈ secondCodes, ∃ r ∈ tokenRows, r.applies .active codeSentinel row.1 = true ∧
    row.2 = r.operation row.1 ∧ ∀ r' ∈ tokenRows, r'.applies .active codeSentinel row.1 = true →
      r' = r ∨ r.priority < r'.priority) _ h

/-- The row of B.LIT, of the last priority. -/
def literalRow : TokenRow := ⟨"B.LIT", 0x00, 0x00, .active, none, 4, .bLit 0⟩

/-- A row of State B is B.LIT's, or has a trigger's code, or after the sentinel a second code. -/
theorem activeRow_cases : ∀ r ∈ tokenRows, r.act = .active →
    r = literalRow ∨ (r.mask = 0xFF ∧ decodePrefix r.code ≠ none) ∨
      (r.mask = 0xFF ∧ r.prev = some codeSentinel ∧ decodeSecond r.code ≠ none) := by decide

theorem tableSelects_literal {prev c : Code} (h₁ : decodePrefix c = none)
    (h₂ : prev = codeSentinel → decodeSecond c = none) : tableSelects .active prev c (.bLit c) := by
  refine ⟨literalRow, by decide, by simp [applies_iff, literalRow], rfl, fun r hmem happ => .inl ?_⟩
  obtain ⟨hact, hprev, hcode⟩ := (applies_iff ..).1 happ
  have hfull : r.mask = 0xFF → c = r.code := by
    intro hmask
    rw [← hcode, hmask]
    exact (BitVec.and_allOnes (x := c)).symm
  obtain hlit | ⟨hmask, hp⟩ | ⟨hmask, hsentinel, hs⟩ := activeRow_cases r hmem hact
  · exact hlit
  · exact absurd (hfull hmask ▸ h₁) hp
  · have : prev = codeSentinel := by simpa [hsentinel, eq_comm] using hprev
    exact absurd (hfull hmask ▸ h₂ this) hs

theorem tableSelects_decodeToken (act : Mode) (prev c : Code) : tableSelects act prev c (decodeToken act prev c) := by
  obtain ⟨rfl, hop⟩ | ⟨rfl, hmem⟩ | ⟨rfl, rfl, hmem⟩ | ⟨rfl, h₁, h₂, hop⟩ := decodeToken_cases act prev c
  · exact hop ▸ tableSelects_dormant prev c
  · exact tableSelects_prefix hmem prev
  · exact tableSelects_pair hmem
  · exact hop ▸ tableSelects_literal h₁ h₂

/-! ### A table word placed for the next step (log 10) -/

/-- Arming the latch writes ACT and OUT and nothing else. -/
theorem armLatch_frame (s : State) : armLatch s = { s with act := .active, out := (armLatch s).out } := by
  unfold armLatch
  split
  · rfl
  case _ hact => rw [← hact]

/-- Arming the sentinel writes PREV and OUT and nothing else. -/
theorem armSentinel_frame (s : State) :
    armSentinel s = { s with prev := codeSentinel, out := (armSentinel s).out } := by
  unfold armSentinel
  split
  case isTrue hprev => rw [← hprev]
  case isFalse => rfl

/-- The phrase just passed in State A, where PREV is 0, is a state of State B. -/
theorem armLatch_keeps_expanderInv {s : State} (hs : ExpanderInv s.act s.prev s.out) :
    ExpanderInv .active (armLatch s).prev (armLatch s).out := by
  unfold armLatch
  split
  case _ hact =>
    rw [(hs.dormant hact).1]
    refine expanderInv_active_zero (Memory.wf_appendStr hs.outWf trigger) ?_
    rw [Memory.bytes_appendStr]
    exact (List.suffix_append _ _).isInfix
  case _ hact => exact hact ▸ hs

theorem armSentinel_keeps_expanderInv {s : State} (hs : ExpanderInv .active s.prev s.out) :
    ExpanderInv .active (armSentinel s).prev (armSentinel s).out := by
  unfold armSentinel
  split
  case isTrue => exact hs
  case isFalse => exact expanderInv_bLit hs.outWf (hs.active rfl) codeSentinel

/-- Presenting a code writes PREV, ACT, OUT, ST and the host's commands and nothing else. -/
theorem presentCode_frame (c : Code) (s : State) :
    presentCode c s =
      { s with
        prev := (presentCode c s).prev, act := .active, out := (presentCode c s).out, st := .run
        host := .drive c :: s.host } := by
  simp only [presentCode]
  split
  · rw [armSentinel_frame, armLatch_frame]
  · rw [armLatch_frame]

theorem presentCode_prev_of_isSec {c : Code} (h : isSec c = true) (s : State) :
    (presentCode c s).prev = codeSentinel := by
  simp only [presentCode, if_pos h]
  rw [armSentinel_frame]

theorem presentCode_keeps_expanderInv (c : Code) {s : State} (hs : ExpanderInv s.act s.prev s.out) :
    ExpanderInv .active (presentCode c s).prev (presentCode c s).out := by
  simp only [presentCode]
  split
  · exact armSentinel_keeps_expanderInv (armLatch_keeps_expanderInv hs)
  · exact armLatch_keeps_expanderInv hs

theorem presentCode_keeps_runInv (c : Code) {s : State} (hs : RunInv s) : RunInv (presentCode c s) := by
  have hexp := presentCode_keeps_expanderInv c hs.expanderInv
  rw [presentCode_frame]
  exact runInv_of_run rfl hexp hs.inputWf hs.iposLe hs.phase hs.lowBound

/-- The presented code is read as in the state of a table word: a second code finds the sentinel, and to any other code
PREV does not matter. -/
theorem decode_presentCode (c : Code) (s : State) :
    decode (.token .active (presentCode c s).prev) c = decode tableContext c := by
  cases hsec : isSec c with
  | true => rw [presentCode_prev_of_isSec hsec, tableContext]
  | false => exact congrArg TokenOp.toInstr (decodeToken_of_not_second ((isSec_eq_false_iff c).1 hsec) _ _)

theorem step_presentCode (c : Code) (s : State) :
    step (presentCode c s) = exec (decode tableContext c) ((presentCode c s).setHost s.host) := by
  rw [← decode_presentCode c s, presentCode_frame c s]
  rfl

/-! ### Text after the trigger read as forms (R55) -/

/-- No trigger is a second code (R54). -/
theorem dict2_eq_none_of_dict1 {c : Code} {bs : List Byte} (h : dict1 c = some bs) : dict2 c = none := by
  unfold dict1 at h
  split_ifs at h <;> subst_vars <;> rfl

theorem readForms_trigger {c : Code} {bs : List Byte} (h : dict1 c = some bs) (cs : List Code) :
    readForms (c :: cs) = bs ++ readForms cs := by
  cases cs with
  | nil => simp [readForms, h]
  | cons d rest => simp [readForms, h]

theorem readForms_pair {c : Code} {bs : List Byte} (h : dict2 c = some bs) (cs : List Code) :
    readForms (codeSentinel :: c :: cs) = bs ++ readForms cs := by
  have hnone : dict1 codeSentinel = none := rfl
  simp [readForms, hnone, h]

/-- A code that begins no form stands for itself. -/
theorem readForms_single {c : Code} {cs : List Code} (h₁ : dict1 c = none)
    (h₂ : c = codeSentinel → ∀ d ∈ cs.head?, dict2 d = none) : readForms (c :: cs) = c :: readForms cs := by
  cases cs with
  | nil => simp [readForms, h₁]
  | cons d rest =>
    have hno : (if c = codeSentinel then dict2 d else none) = none := by
      split
      case isTrue hc => exact h₂ hc d rfl
      case isFalse => rfl
    simp only [readForms, h₁, hno]

/-- The code that may still begin a pair: the sentinel where PREV holds it. -/
def heldSentinel (prev : Code) : List Code := if prev = codeSentinel then [codeSentinel] else []

theorem heldSentinel_sentinel : heldSentinel codeSentinel = [codeSentinel] := rfl

@[simp] theorem heldSentinel_zero : heldSentinel 0#8 = [] := rfl

theorem heldSentinel_of_ne {prev : Code} (h : prev ≠ codeSentinel) : heldSentinel prev = [] := if_neg h

theorem readForms_heldSentinel (prev : Code) : readForms (heldSentinel prev) = heldSentinel prev := by
  unfold heldSentinel
  split <;> rfl

/-- A held sentinel stands for itself where the next code ends no pair. -/
theorem readForms_heldSentinel_append {prev c : Code} (h : prev = codeSentinel → dict2 c = none) (cs : List Code) :
    readForms (heldSentinel prev ++ c :: cs) = heldSentinel prev ++ readForms (c :: cs) := by
  by_cases hprev : prev = codeSentinel
  · subst hprev
    exact readForms_single rfl fun _ d hd => Option.mem_some.1 hd ▸ h rfl
  · rw [heldSentinel_of_ne hprev, List.nil_append, List.nil_append]

/-- A literal either becomes the held sentinel or stands for itself. -/
theorem readForms_literal {c : Code} (h : dict1 c = none) :
    ∃ done, [c] = done ++ heldSentinel c ∧ ∀ cs, readForms (c :: cs) = done ++ readForms (heldSentinel c ++ cs) := by
  by_cases hc : c = codeSentinel
  · subst hc
    exact ⟨[], rfl, fun _ => rfl⟩
  · rw [heldSentinel_of_ne hc]
    exact ⟨[c], rfl, fun cs => readForms_single h fun hs => absurd hs hc⟩

/-! ### The expander against the reading of forms -/

/-- In State B OUT is the text read so far, then the sentinel that may still begin a pair. -/
structure HasRead (text : List Byte) (s : State) : Prop where
  active : s.act = .active
  outBytes : s.outBytes = text ++ heldSentinel s.prev

theorem HasRead.popSafe {text : List Byte} {s : State} (h : HasRead text s) : s.prev = codeSentinel → s.out ≠ [] := by
  intro hprev hnil
  have hbytes := h.outBytes
  rw [hprev, heldSentinel_sentinel, State.outBytes, hnil, Memory.bytes_nil] at hbytes
  exact List.append_ne_nil_of_right_ne_nil text (List.cons_ne_nil _ _) hbytes.symm

/-- One code: what the expander has read and what is left to read stay the same text. -/
theorem expand_hasRead {text : List Byte} {s : State} (hs : HasRead text s) (c : Code) :
    ∃ u text', expand c s = .next u ∧ HasRead text' u ∧
      ∀ cs, text ++ readForms (heldSentinel s.prev ++ c :: cs) = text' ++ readForms (heldSentinel u.prev ++ cs) := by
  obtain ⟨u, hu⟩ := expand_next_of_popSafe hs.popSafe c
  obtain ⟨ha, hout⟩ := hs
  have hua := expand_keeps_active hu ha
  refine ⟨u, ?_⟩
  obtain ⟨hd, -⟩ | ⟨-, bs, hd, rfl⟩ | ⟨-, -, hp, -, bs, hd, rfl⟩ | ⟨-, hd₁, hd₂, rfl⟩ := expand_cases hu
  · simp [ha] at hd
  · refine ⟨text ++ heldSentinel s.prev ++ bs, hu, ⟨hua, by simp [State.bytes_out, hout]⟩, fun cs => ?_⟩
    rw [readForms_heldSentinel_append (fun _ => dict2_eq_none_of_dict1 hd), readForms_trigger hd]
    simp
  · refine ⟨text ++ bs, hu, ⟨hua, by simp [State.bytes_out, hout, hp, heldSentinel_sentinel]⟩, fun cs => ?_⟩
    rw [hp, heldSentinel_sentinel, List.singleton_append, readForms_pair hd]
    simp
  · obtain ⟨done, hdone, hread⟩ := readForms_literal hd₁
    refine ⟨text ++ heldSentinel s.prev ++ done, hu, ⟨hua, by simp [State.bytes_out, hout, hdone]⟩, fun cs => ?_⟩
    rw [readForms_heldSentinel_append hd₂, hread]
    simp

/-- A sequence of codes in State B comes out read as forms (R55). -/
theorem expandAll_hasRead (cs : List Code) {text : List Byte} {s : State} (hs : HasRead text s) :
    ∃ t, expandAll cs s = .next t ∧ t.outBytes = text ++ readForms (heldSentinel s.prev ++ cs) ∧ t.act = .active := by
  induction cs generalizing text s with
  | nil => exact ⟨s, rfl, by rw [List.append_nil, readForms_heldSentinel, hs.outBytes], hs.active⟩
  | cons c cs ih =>
    obtain ⟨u, text', hu, hread, hsame⟩ := expand_hasRead hs c
    rw [expandAll, hu, andThen_next, hsame]
    exact ih hread

/-! ### Up to the end of the phrase -/

/-- A.PASS where the phrase does not end: the code is copied (41_expander_dormant R91). -/
theorem expand_copies {c : Code} {s : State} (hd : s.act = .dormant) (h : ¬ trigger <:+ s.outBytes ++ [c]) :
    expand c s = .next (s.setOut (Memory.append s.out c)) := by
  rw [expand_dormant hd, execAPass_eq, if_neg h]
  rfl

/-- The code that completes the phrase sets the latch (41_expander_dormant R91). -/
theorem expand_completes_trigger {c : Code} {s : State} (hd : s.act = .dormant) (h : trigger <:+ s.outBytes ++ [c]) :
    expand c s = .next ((s.setOut (Memory.append s.out c)).setAct .active) := by
  rw [expand_dormant hd, execAPass_eq, if_pos h]

/-- Text without the phrase is copied and leaves ACT and PREV as they were (41_expander_dormant R92). -/
theorem expandAll_of_no_trigger {cs : List Code} {s : State} (hd : s.act = .dormant)
    (hno : ¬ trigger <:+: s.outBytes ++ cs) :
    ∃ t, expandAll cs s = .next t ∧ t.outBytes = s.outBytes ++ cs ∧ t.act = .dormant ∧ t.prev = s.prev := by
  induction cs generalizing s with
  | nil => exact ⟨s, rfl, (List.append_nil _).symm, hd, rfl⟩
  | cons c cs ih =>
    have hbytes : (s.setOut (Memory.append s.out c)).outBytes ++ cs = s.outBytes ++ c :: cs := by
      simp [State.bytes_out]
    have hsuffix : ¬ trigger <:+ s.outBytes ++ [c] := fun h =>
      hno (h.isInfix.trans ⟨[], cs, by simp⟩)
    rw [expandAll, expand_copies hd hsuffix, andThen_next, ← hbytes]
    exact ih hd (hbytes ▸ hno)

theorem expandAll_append (a b : List Code) (s : State) :
    expandAll (a ++ b) s = andThen (expandAll a s) (expandAll b) := by
  induction a generalizing s with
  | nil => rfl
  | cons c cs ih =>
    have htail : expandAll (cs ++ b) = fun u => andThen (expandAll cs u) (expandAll b) := funext ih
    rw [List.cons_append, expandAll, expandAll, andThen_assoc, htail]

/-- Where the phrase first ends, State B begins with the text so far and PREV = 0 (41_expander_dormant R92). -/
theorem expandAll_first_trigger {before : List Code} (hno : ¬ trigger <:+: before ++ trigger.dropLast) :
    ∃ u, expandAll (before ++ trigger) State.started = .next u ∧ HasRead (before ++ trigger) u ∧ u.prev = 0 := by
  obtain ⟨s, hs, hbytes, hact, hprev⟩ :=
    expandAll_of_no_trigger (cs := before ++ trigger.dropLast) (s := State.started) rfl hno
  rw [show State.started.outBytes = [] from rfl, List.nil_append] at hbytes
  have hphrase : before ++ trigger = before ++ trigger.dropLast ++ [0x74] := by simp [trigger]
  have hout : s.outBytes ++ [0x74] = before ++ trigger := by rw [hbytes, hphrase]
  have hlatch := expand_completes_trigger hact (hout ▸ List.suffix_append before trigger)
  refine ⟨(s.setOut (Memory.append s.out 0x74)).setAct .active, ?_, ⟨rfl, ?_⟩, hprev⟩
  · rw [hphrase, expandAll_append, hs, andThen_next, expandAll, hlatch, andThen_next, expandAll]
  · simp [← hout, hprev, State.bytes_out, State.started, State.reset]

/-! ### The statements -/

/-- Settles O9: by the instruction's row, which says in which context the byte is read. -/
theorem decodeEncode : Obligations.DecodeEncode := by
  intro i ctx hwf hfits
  cases i with
  | unp0 p c | unp1 p c | unp2 p c | unp3 p c | unp4 p c | unp5 p c | unp6 p c =>
    obtain rfl := (isPacked_iff _ ctx).1 hfits
    exact congrArg₂ _ BitVec.extractLsb'_append_eq_right BitVec.extractLsb'_append_eq_left
  | aPass c =>
    obtain ⟨prev, rfl⟩ := (isDormant_iff ctx).1 hfits
    rfl
  | bPfxGt | bPfxBar | bPfxDlr | bPfxAt =>
    obtain ⟨prev, rfl⟩ := (isActive_iff ctx).1 hfits
    rfl
  | bPairA | bPairLowerA | bPairB | bPairC | bPairF | bPairI | bPairP | bPairS | bPairU =>
    obtain rfl := (isArmed_iff ctx).1 hfits
    rfl
  | bLit c => exact decode_encode_literal hwf hfits

/-- Settles O7: the tests of `decodePrefix` and `decodeSecond` stand in the rule's order, and without the sentinel no
test for a second code is met. -/
theorem selectionOfTheExpanderOperation : Obligations.SelectionOfTheExpanderOperation := by
  intro act prev c
  cases act with
  | dormant => rfl
  | active =>
    rw [decode_active, select_prefix, select_second, codeSentinel]
    by_cases hprev : prev = 0x21
    · simp only [hprev, true_and, if_true, reduceCtorEq, if_false]
    · simp only [hprev, false_and, if_false, reduceCtorEq]

/-- Settles O8: the table selects what the decoder gives, and one operation only. -/
theorem opcodeTableSelectsTheDecodedOperation : Obligations.OpcodeTableSelectsTheDecodedOperation := by
  intro act prev c op
  have hdecode : decode (.token act prev) c = (decodeToken act prev c).toInstr := rfl
  rw [hdecode, toInstr_inj]
  constructor
  · exact fun h => tableSelects_unique h (tableSelects_decodeToken act prev c)
  · rintro rfl
    exact tableSelects_decodeToken act prev c

/-- Settles O10: by the phase on the packed layer, by the four ways a code is read on the token layer. -/
theorem encodeDecode : Obligations.EncodeDecode := by
  intro ctx b
  cases ctx with
  | packed k => exact ⟨encode_decodePacked k b, wellFormed_decodePacked k b, fits_decodePacked k b⟩
  | token act prev =>
    simp only [decode]
    obtain ⟨rfl, hop⟩ | ⟨rfl, hmem⟩ | ⟨rfl, rfl, hmem⟩ | ⟨rfl, h₁, h₂, hop⟩ := decodeToken_cases act prev b
    · rw [hop]
      exact ⟨rfl, rfl, rfl⟩
    · exact encode_fits_of_mem_prefixCodes hmem prev
    · exact encode_fits_of_mem_secondCodes hmem
    · rw [hop]
      exact ⟨rfl, wellFormed_literal h₁, fits_literal h₂⟩

/-- Settles O12: the word's byte is the code presented, read in the state its row needs. -/
theorem fetchWordIsRunByTheNextStep : Obligations.FetchWordIsRunByTheNextStep := by
  intro s nbits w i h
  unfold decodeTableWord at h
  split at h
  case isTrue =>
    obtain rfl := Option.some.inj h
    exact ⟨step_presentCode _ s, presentCode_keeps_runInv _⟩
  case isFalse => cases h

/-- Settles O48: up to the last code of the phrase the text is copied; that code sets the latch with PREV = 0, and from
there on the lookback is the reading of forms. -/
theorem textAfterTheTriggerIsReadAsForms : Obligations.TextAfterTheTriggerIsReadAsForms := by
  intro before after hno
  obtain ⟨u, hu, hread, hprev⟩ := expandAll_first_trigger hno
  obtain ⟨t, ht, hbytes, hact⟩ := expandAll_hasRead after hread
  refine ⟨t, ?_, ?_, hact⟩
  · rw [expandAll_append, hu, andThen_next, ht]
  · simpa [hprev] using hbytes

/-- Settles O6: the two fields as quotient and remainder of the byte. -/
theorem fieldsOfAPackedByte : Obligations.FieldsOfAPackedByte := by
  intro v
  refine ⟨?_, ?_, ?_, ?_, ?_, ?_, ?_⟩
  all_goals exact ⟨_, _, rfl, toNat_payload v _, toNat_carryOut v rfl⟩

/-- Settles O11: each word is read by evaluating the decoder on it. -/
theorem wordsOfTheSpecDecode : Obligations.WordsOfTheSpecDecode := by
  unfold Obligations.WordsOfTheSpecDecode
  decide

end Sys2Proof.Machine

/-! # The unpacker: 40_unpacker

UNP0 to UNP6 as the four steps of R71 on the byte, the reference packer of 95_test_vectors section 4 undone by the
unpacker, and the statements of 40_unpacker assembled from them. -/

namespace Sys2Proof.Machine

/-! ### The fields of a byte as codes (R71) -/

/-- The payload is the byte under the mask `0x7F >> k`. -/
theorem setWidth_payload (v : Byte) {k n : Nat} (h : n + k = 7) :
    (v.extractLsb' 0 n).setWidth 8 = v &&& ((0x7F : Byte) >>> k) := by
  have hmask : 0x7F >>> k = 2 ^ n - 1 := by
    rw [Nat.eq_sub_of_add_eq h]
    exact (by decide : ∀ j < 8, 0x7F >>> j = 2 ^ (7 - j) - 1) k (by omega)
  apply BitVec.eq_of_toNat_eq
  rw [BitVec.toNat_setWidth, toNat_payload, BitVec.toNat_and, BitVec.toNat_ushiftRight,
    show (0x7F : Byte).toNat = 0x7F from rfl, hmask, Nat.and_two_pow_sub_one_eq_mod,
    Nat.mod_eq_of_lt ((Nat.mod_le _ _).trans_lt v.isLt)]

theorem firstCode_payload (v : Byte) {k n : Nat} (h : n + k = 7) (low : BitVec 7) :
    firstCode k (v.extractLsb' 0 n) low = ((v &&& ((0x7F : Byte) >>> k)) <<< k) ||| low.setWidth 8 := by
  rw [firstCode, setWidth_payload v h]

theorem carriedLow_carryOut (v : Byte) {start len : Nat} (h : start + len = 8) :
    carriedLow (v.extractLsb' start len) = (v >>> start).setWidth 7 := by
  apply BitVec.eq_of_toNat_eq
  rw [carriedLow, BitVec.toNat_setWidth, toNat_carryOut v h, BitVec.toNat_setWidth, BitVec.toNat_ushiftRight,
    Nat.shiftRight_eq_div_pow]

theorem secondCode_carryOut (v : Byte) : secondCode (v.extractLsb' 1 7) = v >>> 1 := by
  apply BitVec.eq_of_toNat_eq
  have hlt := v.isLt
  rw [secondCode, BitVec.toNat_setWidth, toNat_carryOut v rfl, BitVec.toNat_ushiftRight, Nat.shiftRight_eq_div_pow,
    Nat.mod_eq_of_lt (by omega)]

/-- The code on eight bits is the one on naturals of `unpackFrom`: seven bits lose nothing (R72). -/
theorem toNat_packedCode (v : Byte) (low : BitVec 7) {k : Nat} (hk : k < 7) (hlow : low.toNat < 2 ^ k) :
    (((v &&& ((0x7F : Byte) >>> k)) <<< k) ||| low.setWidth 8).toNat =
      ((v.toNat &&& (0x7F >>> k)) <<< k) ||| low.toNat := by
  have hfits := (payload_or_low_lt v.toNat hk hlow).trans (by decide : 2 ^ 7 < 2 ^ 8)
  rw [BitVec.toNat_or, BitVec.toNat_shiftLeft, BitVec.toNat_and, BitVec.toNat_ushiftRight, BitVec.toNat_setWidth,
    ← Nat.or_mod_two_pow, show (0x7F : Byte).toNat = 0x7F from rfl, Nat.mod_eq_of_lt hfits]

/-! ### One packed byte at a phase (R71) -/

/-- The shape of R73 to R78 in terms of the byte: its low `n` bits are emitted above LOW, the `len` bits above them are
carried. -/
theorem unpackOne_byte {k n len : Nat} (hn : n + k = 7) (hlen : n + len = 8) (v : Byte) (next : Fin 7) (s : State) :
    unpackOne k (v.extractLsb' 0 n) (v.extractLsb' n len) next s =
      andThen (expand (((v &&& ((0x7F : Byte) >>> k)) <<< k) ||| s.low.setWidth 8) s) fun u =>
        .next (u.setUnpacker ((v >>> n).setWidth 7) next) := by
  rw [unpackOne, firstCode_payload v hn, carriedLow_carryOut v hlen]

/-- Before phase 6 the operation emits one code and carries the rest of the byte to the next phase (R71 steps 1, 2,
4). -/
theorem exec_packed_of_ne_six {k : Fin 7} (hk : k ≠ 6) (v : Byte) (s : State) :
    exec (decode (.packed k) v) s =
      andThen (expand (((v &&& ((0x7F : Byte) >>> k.val)) <<< k.val) ||| s.low.setWidth 8) s) fun u =>
        .next (u.setUnpacker ((v >>> (7 - k.val)).setWidth 7) (k + 1)) := by
  match k with
  | 0 => exact unpackOne_byte (n := 7) (len := 1) rfl rfl v 1 s
  | 1 => exact unpackOne_byte (n := 6) (len := 2) rfl rfl v 2 s
  | 2 => exact unpackOne_byte (n := 5) (len := 3) rfl rfl v 3 s
  | 3 => exact unpackOne_byte (n := 4) (len := 4) rfl rfl v 4 s
  | 4 => exact unpackOne_byte (n := 3) (len := 5) rfl rfl v 5 s
  | 5 => exact unpackOne_byte (n := 2) (len := 6) rfl rfl v 6 s
  | 6 => contradiction

/-- At phase 6 the carry-out is a code of its own, and LOW and BIT are cleared (R71 steps 1, 3). -/
theorem execUnp6_byte (v : Byte) (s : State) :
    execUnp6 (v.extractLsb' 0 1) (v.extractLsb' 1 7) s =
      andThen (expand (((v &&& 0x01) <<< 6) ||| s.low.setWidth 8) s) fun u =>
        andThen (expand (v >>> 1) u) fun w => .next (w.setUnpacker 0 0) := by
  rw [execUnp6, firstCode_payload v rfl, secondCode_carryOut]
  rfl

/-- Where the expander can pop, the operation of a phase before 6 completes. -/
theorem emitsOne_packed {k : Fin 7} (hk : k ≠ 6) (v : Byte) {s : State} (h : PopSafe s) :
    EmitsOne s (decode (.packed k) v) (((v &&& ((0x7F : Byte) >>> k.val)) <<< k.val) ||| s.low.setWidth 8)
      ((v >>> (7 - k.val)).setWidth 7) (k + 1) := by
  obtain ⟨u, hu⟩ := expand_next_of_popSafe h _
  refine ⟨u, hu, ?_⟩
  rw [exec_packed_of_ne_six hk, hu]
  rfl

/-! ### The reference packer (95_test_vectors section 4) -/

theorem length_packBytes (g n : Nat) : (packBytes g n).length = n := by simp [packBytes]

theorem packBytes_succ (g n : Nat) : packBytes g (n + 1) = BitVec.ofNat 8 g :: packBytes (g / 256) n := by
  have hshift : ∀ i, g >>> (8 * (i + 1)) = (g / 256) >>> (8 * i) := fun i => by
    rw [Nat.mul_succ, Nat.add_comm, Nat.shiftRight_add, Nat.shiftRight_eq_div_pow g 8]
  simp [packBytes, List.range_succ_eq_map, Function.comp_def, hshift]

/-- The packed bytes are the number's low bytes, read as a stream again. -/
theorem streamNumber_packBytes (g n : Nat) : streamNumber (packBytes g n) = g % 256 ^ n := by
  induction n generalizing g with
  | zero => exact (Nat.mod_one g).symm
  | succ n ih =>
    have hsplit : g % 256 ^ (n + 1) = g % 256 + 256 * (g / 256 % 256 ^ n) := by rw [Nat.pow_succ', Nat.mod_mul]
    rw [packBytes_succ, streamNumber, ih, BitVec.toNat_ofNat, hsplit]

theorem blockNumber_lt {cs : List Code} (h : ∀ c ∈ cs, c.toNat < 128) : blockNumber cs < 128 ^ cs.length := by
  induction cs with
  | nil => decide
  | cons c cs ih =>
    obtain ⟨hc, hcs⟩ := List.forall_mem_cons.1 h
    have hrest := ih hcs
    rw [blockNumber, List.length_cons, Nat.pow_succ']
    omega

theorem blockNumber_append_zero (cs : List Code) : blockNumber (cs ++ [0]) = blockNumber cs := by
  induction cs with
  | nil => rfl
  | cons c cs ih => rw [List.cons_append, blockNumber, ih, blockNumber]

/-- The seven-bit pieces of a block's number are its codes. -/
theorem map_numberCode_blockNumber {cs : List Code} (h : ∀ c ∈ cs, c.toNat < 128) :
    (List.range cs.length).map (numberCode (blockNumber cs)) = cs := by
  induction cs with
  | nil => rfl
  | cons c cs ih =>
    obtain ⟨hc, hcs⟩ := List.forall_mem_cons.1 h
    have hmod : blockNumber (c :: cs) % 128 = c.toNat := by rw [blockNumber]; omega
    have hdiv : blockNumber (c :: cs) / 128 = blockNumber cs := by rw [blockNumber]; omega
    rw [List.length_cons, map_numberCode_range_succ, hmod, hdiv, ih hcs, BitVec.ofNat_toNat, BitVec.setWidth_eq]

/-- As many bytes as unpack to the number of codes (R82) hold every bit of them. -/
theorem unpack_packBytes {cs : List Code} (h : ∀ c ∈ cs, c.toNat < 128) {n : Nat} (hn : n + n / 7 = cs.length) :
    unpack (packBytes (blockNumber cs) n) = cs := by
  have hfits : blockNumber cs < 256 ^ n := calc
    blockNumber cs < 128 ^ cs.length := blockNumber_lt h
    _ = 2 ^ (7 * cs.length) := (Nat.pow_mul 2 7 _).symm
    _ ≤ 2 ^ (8 * n) := Nat.pow_le_pow_right (by decide) (by omega)
    _ = 256 ^ n := Nat.pow_mul 2 8 n
  rw [codesAreTheBitStream, length_packBytes, hn, streamCode_eq_numberCode, streamNumber_packBytes,
    Nat.mod_eq_of_lt hfits, map_numberCode_blockNumber h]

/-- Where `pack` finds no block of eight codes the list is shorter. -/
theorem length_lt_of_no_block {cs : List Code}
    (h : ∀ c₀ c₁ c₂ c₃ c₄ c₅ c₆ c₇ rest, cs = c₀ :: c₁ :: c₂ :: c₃ :: c₄ :: c₅ :: c₆ :: c₇ :: rest → False) :
    cs.length < 8 := by
  match cs with
  | c₀ :: c₁ :: c₂ :: c₃ :: c₄ :: c₅ :: c₆ :: c₇ :: rest => exact (h _ _ _ _ _ _ _ _ rest rfl).elim
  | [] | [_] | [_, _] | [_, _, _] | [_, _, _, _] | [_, _, _, _, _] | [_, _, _, _, _, _] | [_, _, _, _, _, _, _] => simp

/-- A last block of seven codes fills seven bytes, which hold one zero code more (R86). -/
theorem unpack_packBytes_short {cs : List Code} (h : ∀ c ∈ cs, c.toNat < 128) (hlen : cs.length < 8) :
    unpack (packBytes (blockNumber cs) (min cs.length 7)) = if cs.length = 7 then cs ++ [0] else cs := by
  split
  case isTrue h7 =>
    have hpadded : ∀ c ∈ cs ++ [0], c.toNat < 128 := List.forall_mem_append.2 ⟨h, by decide⟩
    rw [← blockNumber_append_zero]
    exact unpack_packBytes hpadded (by simp [h7])
  case isFalse h7 => exact unpack_packBytes h (by omega)

/-! ### The statements -/

/-- Settles O21: a block of eight codes is a complete group of seven bytes, so the blocks unpack apart; seven codes left
over take a whole group too, whose eighth code is the padding. -/
theorem unpackOfPack : Obligations.UnpackOfPack := by
  intro cs h
  induction cs using pack.induct with
  | case1 c₀ c₁ c₂ c₃ c₄ c₅ c₆ c₇ rest ih =>
    obtain ⟨hblock, hrest⟩ :=
      List.forall_mem_append.1 (show ∀ c ∈ [c₀, c₁, c₂, c₃, c₄, c₅, c₆, c₇] ++ rest, c.toNat < 128 from h)
    have hgroup : (packBytes (blockNumber [c₀, c₁, c₂, c₃, c₄, c₅, c₆, c₇]) 7).length % 7 = 0 := by
      rw [length_packBytes]
    have hlength : (c₀ :: c₁ :: c₂ :: c₃ :: c₄ :: c₅ :: c₆ :: c₇ :: rest).length % 8 = rest.length % 8 :=
      Nat.add_mod_right rest.length 8
    rw [pack, unpack_append_of_length_mod hgroup, unpack_packBytes hblock rfl, ih hrest]
    rw [hlength]
    split <;> rfl
  | case2 short hshort =>
    have hlen := length_lt_of_no_block hshort
    rw [pack.eq_2 short hshort, unpack_packBytes_short h hlen, Nat.mod_eq_of_lt hlen]

/-- Settles O15: by whether the phase is 6. -/
theorem unpackStepIsTheAlgorithm : Obligations.UnpackStepIsTheAlgorithm := by
  intro s v
  by_cases h6 : s.bit = 6
  · simp only [h6, if_true]
    exact execUnp6_byte v s
  · simp only [if_neg h6]
    exact exec_packed_of_ne_six h6 v s

/-- Settles O13: the phases 0 to 5; at phase 0 there is no LOW to or. -/
theorem unpackOneCode : Obligations.UnpackOneCode := by
  intro s v hsafe
  refine ⟨fun hlow => ?_, ?_, ?_, ?_, ?_, ?_⟩
  · have hcode : ((v &&& ((0x7F : Byte) >>> 0)) <<< 0) ||| s.low.setWidth 8 = v &&& 0x7F := by simp [hlow]
    exact hcode ▸ emitsOne_packed (k := 0) (by decide) v hsafe
  · exact emitsOne_packed (k := 1) (by decide) v hsafe
  · exact emitsOne_packed (k := 2) (by decide) v hsafe
  · exact emitsOne_packed (k := 3) (by decide) v hsafe
  · exact emitsOne_packed (k := 4) (by decide) v hsafe
  · exact emitsOne_packed (k := 5) (by decide) v hsafe

/-- Settles O14: after the first code OUT is not empty, so the second completes too. -/
theorem unpackTwoCodes : Obligations.UnpackTwoCodes := by
  intro s v hsafe
  obtain ⟨u, hu⟩ := expand_next_of_popSafe hsafe (((v &&& 0x01) <<< 6) ||| s.low.setWidth 8)
  obtain ⟨w, hw⟩ := expand_next_of_popSafe (fun _ => expand_out_ne_nil hu) (v >>> 1)
  refine ⟨u, w, hu, hw, ?_⟩
  calc exec (.unp6 (v.extractLsb' 0 1) (v.extractLsb' 1 7)) s = _ := execUnp6_byte v s
    _ = .next { w with low := 0, bit := 0 } := by rw [hu, andThen_next, hw, andThen_next]; rfl

/-- Settles O16: the sum of payload and carried bits, for one code and for all codes of a buffer. -/
theorem emittedCodesAreSevenBits : Obligations.EmittedCodesAreSevenBits := by
  refine ⟨fun k v low hlow => ?_, fun v => ?_, unpack_lt⟩
  · have hlt := payload_or_low_lt v.toNat k.isLt hlow
    have hsum : (v.toNat &&& (0x7F >>> k.val)) <<< k.val ||| low.toNat
        = v.toNat % 2 ^ (7 - k.val) * 2 ^ k.val + low.toNat := by
      rw [payload_or_low_eq _ k.isLt hlow, Nat.add_comm, Nat.mul_comm]
    rw [hsum] at hlt
    exact ⟨(toNat_packedCode v low k.isLt hlow).trans hsum, hlt⟩
  · rw [BitVec.toNat_ushiftRight]
    exact carryOut_lt v (bit := 6) (by decide)

/-- Settles O17: the count from phase 0, `8 * (N/7)` being its value at a multiple of 7. -/
theorem countLaw : Obligations.CountLaw := by
  intro bs
  rw [length_unpack]
  omega

/-- Settles O20: the last clause by a first byte whose top bit is carried. -/
theorem chunksContinueThePhase : Obligations.ChunksContinueThePhase :=
  ⟨unpackFrom_append 0 0, fun _ b h => unpack_append_of_length_mod h b, expandAll_append, [0x80], [0x00], by decide⟩

end Sys2Proof.Machine

/-! # The expander in State A: 41_expander_dormant

The frame of every operation, the incremental matcher as the length of the phrase's beginning that a text ends with, and
the statements of 41_expander_dormant assembled from them. -/

namespace Sys2Proof.Machine

/-! ### The frame of every operation -/

/-- No operation writes IPOS, ST, IN or what the host will give (41_expander_dormant R90, 40_unpacker R70). -/
theorem exec_frame {i : Instr} {s t : State} (h : exec i s = .next t) :
    t.ipos = s.ipos ∧ t.st = s.st ∧ t.input = s.input ∧ t.host = s.host := by
  cases hi : isExpander i with
  | true =>
    obtain ⟨c, -, rfl⟩ | ⟨c, -, rfl⟩ | ⟨bs, -, rfl⟩ | ⟨bs, -, -, rfl⟩ := expander_cases hi h <;>
      exact ⟨rfl, rfl, rfl, rfl⟩
  | false =>
    obtain ⟨c, u, low, bit, hu, rfl⟩ | ⟨c₁, c₂, u, w, hu, hw, rfl⟩ := unpacker_cases hi h
    · rw [expand_frame hu]
      exact ⟨rfl, rfl, rfl, rfl⟩
    · rw [expand_frame hw, expand_frame hu]
      exact ⟨rfl, rfl, rfl, rfl⟩

/-- An expander operation leaves LOW and BIT (41_expander_dormant R90). -/
theorem expander_keeps_unpacker {i : Instr} {s t : State} (hi : isExpander i = true) (h : exec i s = .next t) :
    t.low = s.low ∧ t.bit = s.bit := by
  obtain ⟨c, -, rfl⟩ | ⟨c, -, rfl⟩ | ⟨bs, -, rfl⟩ | ⟨bs, -, -, rfl⟩ := expander_cases hi h <;> exact ⟨rfl, rfl⟩

/-- A.PASS does not write PREV (90_conflicts C2). -/
theorem aPass_keeps_prev {c : Code} {s t : State} (h : exec (.aPass c) s = .next t) : t.prev = s.prev := by
  obtain rfl := Host.Outcome.next.inj h
  rfl

/-- Only A.PASS writes ACT (10_state R14). -/
theorem expander_keeps_act {i : Instr} {s t : State} (hi : isExpander i = true) (hpass : ∀ c, i ≠ .aPass c)
    (h : exec i s = .next t) : t.act = s.act := by
  obtain ⟨c, hc, -⟩ | ⟨c, -, rfl⟩ | ⟨bs, -, rfl⟩ | ⟨bs, -, -, rfl⟩ := expander_cases hi h
  · exact absurd hc (hpass c)
  · rfl
  · rfl
  · rfl

/-! ### The incremental matcher (R93) -/

/-- The first byte of the phrase occurs nowhere else in it (30_encoding R59). -/
theorem eq_zero_of_trigger_getElem? {m : Nat} (h : trigger[m]? = trigger[0]?) : m = 0 := by
  by_cases hm : m < trigger.length
  · exact (by decide : ∀ k < trigger.length, trigger[k]? = trigger[0]? → k = 0) m hm h
  · rw [List.getElem?_eq_none (Nat.le_of_not_lt hm)] at h
    cases h

/-- MATCH becomes 1 on the first byte of the phrase, whatever it was before: that byte goes on from 0 only. -/
theorem matchNext_eq_one_iff (m : Nat) (c : Code) : matchNext m c = 1 ↔ trigger[0]? = some c := by
  by_cases hgo : trigger[m]? = some c
  · rw [matchNext, if_pos hgo, Nat.add_eq_right]
    exact ⟨fun hm => hm ▸ hgo, fun hfirst => eq_zero_of_trigger_getElem? (hgo.trans hfirst.symm)⟩
  · simp [matchNext, hgo]

/-- MATCH gets beyond 1 in one way only: from the value before, on the byte that comes next in the phrase. -/
theorem matchNext_eq_succ_iff {k : Nat} (hk : 0 < k) (m : Nat) (c : Code) :
    matchNext m c = k + 1 ↔ trigger[k]? = some c ∧ m = k := by
  by_cases hgo : trigger[m]? = some c
  · rw [matchNext, if_pos hgo, Nat.add_right_cancel_iff]
    exact ⟨fun hm => ⟨hm ▸ hgo, hm⟩, And.right⟩
  · have hother : ¬ (trigger[k]? = some c ∧ m = k) := fun ⟨h, hm⟩ => hgo (hm ▸ h)
    rw [matchNext, if_neg hgo]
    split <;> simp only [hother, iff_false] <;> omega

theorem matchNext_le (m : Nat) (c : Code) : matchNext m c ≤ trigger.length := by
  unfold matchNext
  split_ifs with hgo
  · exact (List.getElem?_eq_some_iff.1 hgo).1
  · decide
  · decide

theorem matchAfter_concat (cs : List Code) (c : Code) : matchAfter (cs ++ [c]) = matchNext (matchAfter cs) c :=
  List.foldl_concat ..

theorem matchAfter_le (cs : List Code) : matchAfter cs ≤ trigger.length := by
  cases cs using List.reverseRecOn with
  | nil => decide
  | append_singleton cs c => rw [matchAfter_concat]; exact matchNext_le _ c

/-- A text with one code more ends with one byte more of the phrase exactly where that code is that byte. -/
theorem trigger_take_succ_suffix_concat_iff (cs : List Code) (c : Code) {k : Nat} (hk : k < trigger.length) :
    trigger.take (k + 1) <:+ cs ++ [c] ↔ trigger[k]? = some c ∧ trigger.take k <:+ cs := by
  rw [List.suffix_concat_iff, List.take_succ_eq_append_getElem hk, List.getElem?_eq_getElem hk, Option.some_inj]
  constructor
  · rintro (hnil | ⟨front, heq, hfront⟩)
    · exact absurd hnil (List.append_ne_nil_of_right_ne_nil _ (List.cons_ne_nil _ _))
    · obtain ⟨rfl, hlast⟩ := List.append_inj' heq rfl
      exact ⟨List.head_eq_of_cons_eq hlast, hfront⟩
  · rintro ⟨rfl, htake⟩
    exact .inr ⟨_, rfl, htake⟩

/-- The matcher is exact because the phrase cannot overlap itself: a text ends with the first `k` bytes of the phrase for
one `k` above 0 at most, and MATCH is that `k` (R93). -/
theorem matchAfter_eq_iff (cs : List Code) {k : Nat} (hpos : 0 < k) (hk : k ≤ trigger.length) :
    matchAfter cs = k ↔ trigger.take k <:+ cs := by
  induction cs using List.reverseRecOn generalizing k with
  | nil =>
    have hnil : ¬ trigger.take k <:+ [] := by simp [trigger]; omega
    simp only [hnil, iff_false]
    exact hpos.ne
  | append_singleton cs c ih =>
    obtain ⟨j, rfl⟩ := Nat.exists_eq_succ_of_ne_zero hpos.ne'
    rw [matchAfter_concat, trigger_take_succ_suffix_concat_iff cs c hk]
    by_cases hj : j = 0
    · simp [hj, matchNext_eq_one_iff]
    · have hjpos := Nat.pos_of_ne_zero hj
      rw [matchNext_eq_succ_iff hjpos, ih hjpos (Nat.le_of_lt hk)]

/-- MATCH is at its end exactly where the tail comparison of A.PASS holds. -/
theorem matchAfter_eq_trigLen_iff (cs : List Code) : matchAfter cs = Config.trigLen ↔ trigger <:+ cs :=
  matchAfter_eq_iff cs (k := 11) (by decide) (by decide)

/-! ### The statements -/

/-- Settles O31: by the frame of every operation; the expander's registers by the four shapes its operations have. -/
theorem operationsLeaveTheRestAlone : Obligations.OperationsLeaveTheRestAlone := by
  intro i s t h
  obtain ⟨hipos, hst, hinput, hhost⟩ := exec_frame h
  refine ⟨hipos, hst, hinput, hhost, fun hi => expander_keeps_unpacker hi h, ?_, fun hi hpass => ?_, fun a => ?_⟩
  · rintro c rfl
    exact aPass_keeps_prev h
  · exact expander_keeps_act hi hpass h
  · rw [hinput]

/-- Settles O47: State A from the start copies every code while the phrase is absent. -/
theorem dormantTextIsCopied : Obligations.DormantTextIsCopied := fun _ hno =>
  expandAll_of_no_trigger (s := State.started) rfl hno

/-- Settles O49: MATCH is at most 11, and it is 11 exactly at the end of a phrase. -/
theorem incrementalMatcherIsExact : Obligations.IncrementalMatcherIsExact := by
  intro cs c hno
  refine ⟨(matchAfter_le cs).lt_of_ne fun h => ?_, matchAfter_eq_trigLen_iff (cs ++ [c])⟩
  exact hno ((matchAfter_eq_trigLen_iff cs).1 h).isInfix

/-- Settles O22: ACT = 0 selects A.PASS by the first test of R56; its next state is that of `execAPass_eq`. -/
theorem dormantPassesEveryCode : Obligations.DormantPassesEveryCode :=
  fun c => ⟨fun _ => rfl, fun s => execAPass_eq c s⟩

end Sys2Proof.Machine

/-! # The expander in State B: 42_expander_active

Where an operation stores in OUT, the shapes of the three kinds of operations, the codes each kind is selected by, and
the statements of 42_expander_active assembled from them. -/

/-! ### Where an operation stores -/

namespace Sys2Proof.Machine.Memory

/-- `m'` is `m` with `bs` stored at consecutive addresses from `a` on: the space ends after them, and every other address
reads as before (42_expander_active R119). -/
structure StoresAt (m m' : Memory) (a : Nat) (bs : List Byte) : Prop where
  stored : ∀ k < bs.length, read m' (a + k) = bs[k]?
  elsewhere : ∀ b, b < a ∨ a + bs.length ≤ b → read m' b = read m b
  size_eq : m'.length = a + bs.length

/-- What is read from the canonical form after an append. -/
theorem read_appendStr {m : Memory} (h : wf m) (bs : List Byte) (a : Nat) :
    read (appendStr m bs) a = (bytes m ++ bs)[a]? := by
  rw [read_eq_bytes (wf_appendStr h bs), bytes_appendStr]

theorem storesAt_appendStr {m : Memory} (h : wf m) (bs : List Byte) : StoresAt m (appendStr m bs) m.length bs where
  stored k _ := by
    rw [read_appendStr h, ← length_bytes m, List.getElem?_append_right (Nat.le_add_right _ _), Nat.add_sub_cancel_left]
  elsewhere b hb := by
    rw [read_appendStr h, read_eq_bytes h]
    obtain hlow | hhigh := hb
    · exact List.getElem?_append_left (by simpa using hlow)
    · rw [List.getElem?_eq_none (by simpa using hhigh), List.getElem?_eq_none (by simp; omega)]
  size_eq := length_appendStr m bs

/-- A pop leaves every address but the last one as it was. -/
theorem read_pop_of_ne {m : Memory} (h : wf m) {a : Nat} (ha : a ≠ m.length - 1) : read (pop m) a = read m a := by
  rw [read_eq_bytes (wf_pop h), read_eq_bytes h, bytes_pop, List.getElem?_dropLast, length_bytes]
  split
  case isTrue => rfl
  case isFalse => rw [List.getElem?_eq_none (by simp; omega)]

/-- The address a pop gives up is the first one stored to. -/
theorem storesAt_pop_appendStr {m : Memory} (h : wf m) {bs : List Byte} (hbs : bs ≠ []) :
    StoresAt m (appendStr (pop m) bs) (m.length - 1) bs := by
  have hstores := storesAt_appendStr (wf_pop h) bs
  rw [length_pop] at hstores
  have hpos := List.length_pos_of_ne_nil hbs
  exact ⟨hstores.stored, fun b hb => (hstores.elsewhere b hb).trans (read_pop_of_ne h (by omega)), hstores.size_eq⟩

end Sys2Proof.Machine.Memory

namespace Sys2Proof.Machine

theorem storedAt_of_trigger {i : Instr} {bs : List Byte} (s : State)
    (h : (i, bs) ∈ [(Instr.bPfxGt, strDriver), (.bPfxBar, strIokit), (.bPfxDlr, strSecurity),
      (.bPfxAt, strApplePrefix)]) : storedAt s i = (s.olen, bs) := by
  simp only [List.mem_cons, Prod.mk.injEq, List.not_mem_nil, or_false] at h
  obtain ⟨rfl, rfl⟩ | ⟨rfl, rfl⟩ | ⟨rfl, rfl⟩ | ⟨rfl, rfl⟩ := h <;> rfl

theorem storedAt_of_pair {i : Instr} {bs : List Byte} (s : State)
    (h : (i, bs) ∈ [(Instr.bPairA, strApple), (.bPairLowerA, strAction), (.bPairB, strBluetooth),
      (.bPairC, strController), (.bPairF, strFamily), (.bPairI, strIntel), (.bPairP, strProfile),
      (.bPairS, strStorage), (.bPairU, strAppleUsb)]) : storedAt s i = (s.olen - 1, bs) := by
  simp only [List.mem_cons, Prod.mk.injEq, List.not_mem_nil, or_false] at h
  obtain ⟨rfl, rfl⟩ | ⟨rfl, rfl⟩ | ⟨rfl, rfl⟩ | ⟨rfl, rfl⟩ | ⟨rfl, rfl⟩ | ⟨rfl, rfl⟩ | ⟨rfl, rfl⟩ | ⟨rfl, rfl⟩ |
    ⟨rfl, rfl⟩ := h <;> rfl

/-- Every expander operation stores its bytes where `storedAt` says. -/
theorem expander_storesAt {i : Instr} {s t : State} (hi : isExpander i = true) (hwf : Memory.wf s.out)
    (h : exec i s = .next t) : Memory.StoresAt s.out t.out (storedAt s i).1 (storedAt s i).2 := by
  obtain ⟨c, rfl, rfl⟩ | ⟨c, rfl, rfl⟩ | ⟨bs, hmem, rfl⟩ | ⟨bs, hmem, -, rfl⟩ := expander_cases hi h
  · exact Memory.storesAt_appendStr hwf [c]
  · exact Memory.storesAt_appendStr hwf [c]
  · rw [storedAt_of_trigger s hmem]
    exact Memory.storesAt_appendStr hwf bs
  · have hne : bs ≠ [] := (by decide : ∀ row ∈ (_ : List (Instr × List Byte)), row.2 ≠ []) _ hmem
    rw [storedAt_of_pair s hmem]
    exact Memory.storesAt_pop_appendStr hwf hne

/-! ### The shapes of the operations -/

theorem rewrites_appendStr (s : State) (bs : List Byte) (prev : Code) :
    Rewrites s ((s.setOut (Memory.appendStr s.out bs)).setPrev prev) 0 bs prev := by
  refine ⟨rfl, ?_, fun h => Memory.wf_appendStr h bs⟩
  simp [State.bytes_out, State.olen_eq_length_outBytes]

theorem rewrites_pop_appendStr (s : State) (bs : List Byte) (prev : Code) :
    Rewrites s ((s.setOut (Memory.appendStr (Memory.pop s.out) bs)).setPrev prev) 1 bs prev := by
  refine ⟨rfl, ?_, fun h => Memory.wf_appendStr (Memory.wf_pop h) bs⟩
  simp [State.bytes_out, State.olen_eq_length_outBytes, List.dropLast_eq_take]

theorem prefixRule {op : TokenOp} {c : Code} {bs : List Byte} (hsel : decodePrefix c = some op)
    (hexec : ∀ s, exec op.toInstr s = prefixExpansion bs s) : PrefixRule op.toInstr c bs :=
  ⟨fun prev => congrArg TokenOp.toInstr (decodeToken_prefix hsel prev),
    fun s => ⟨_, (hexec s).trans (prefixExpansion_eq bs s), rewrites_appendStr s bs 0⟩⟩

theorem pairRule {op : TokenOp} {c : Code} {bs : List Byte} (hnone : decodePrefix c = none)
    (hsel : decodeSecond c = some op) (hexec : ∀ s, exec op.toInstr s = pairExpansion bs s) :
    PairRule op.toInstr c bs := by
  refine ⟨congrArg TokenOp.toInstr (decodeToken_pair hnone hsel), fun prev hprev => ?_, fun s ho => ?_⟩
  · exact congrArg TokenOp.toInstr (decodeToken_literal hnone fun h => absurd h hprev)
  · have hnext := pairExpansion_of_ne_nil bs ho
    exact ⟨_, (hexec s).trans hnext, rewrites_pop_appendStr s bs 0, (pairExpansion_olen hnext).2⟩

theorem prefixExpansion_prev {bs : List Byte} {s t : State} (h : prefixExpansion bs s = .next t) : t.prev = 0 := by
  obtain rfl := Host.Outcome.next.inj h
  rfl

theorem pairExpansion_prev {bs : List Byte} {s t : State} (h : pairExpansion bs s = .next t) : t.prev = 0 := by
  obtain ⟨u, -, hu⟩ := (andThen_eq_next_iff _ _ _).1 h
  exact prefixExpansion_prev hu

/-! ### The codes that select them (R54) -/

theorem decodePrefix_eq_none_of_not_mem {c : Code} (h : c ∉ prefixCodes.map Prod.fst) : decodePrefix c = none := by
  cases hd : decodePrefix c with
  | none => rfl
  | some op => exact absurd (List.mem_map_of_mem (mem_prefixCodes_of_decodePrefix hd)) h

theorem decodeSecond_eq_none_of_not_mem {c : Code} (h : c ∉ secondCodes.map Prod.fst) : decodeSecond c = none := by
  cases hd : decodeSecond c with
  | none => rfl
  | some op => exact absurd (List.mem_map_of_mem (mem_secondCodes_of_decodeSecond hd)) h

theorem exists_dict1_of_mem {c : Code} (h : c ∈ prefixCodes.map Prod.fst) : ∃ bs, dict1 c = some bs :=
  Option.isSome_iff_exists.1 ((by decide : ∀ d ∈ prefixCodes.map Prod.fst, (dict1 d).isSome = true) c h)

theorem exists_dict2_of_mem {c : Code} (h : c ∈ secondCodes.map Prod.fst) : ∃ bs, dict2 c = some bs :=
  Option.isSome_iff_exists.1 ((by decide : ∀ d ∈ secondCodes.map Prod.fst, (dict2 d).isSome = true) c h)

/-! ### The expansion strings -/

/-- The codes that begin a form: the sentinel and the single-character triggers (R54). -/
def formStarts : List Code := codeSentinel :: prefixCodes.map Prod.fst

theorem dict1_no_formStart {c : Code} {bs : List Byte} (h : dict1 c = some bs) : ∀ b ∈ bs, b ∉ formStarts := by
  unfold dict1 at h
  split_ifs at h <;> cases h <;> decide

theorem dict2_no_formStart {c : Code} {bs : List Byte} (h : dict2 c = some bs) : ∀ b ∈ bs, b ∉ formStarts := by
  unfold dict2 at h
  split_ifs at h <;> cases h <;> decide

/-! ### A sequence of literals -/

/-- Codes that begin no form are literals, a second code among them too: only the first code can find the sentinel in
PREV. -/
theorem expandAll_literals {cs : List Code} (hcs : ∀ c ∈ cs, dict1 c = none ∧ c ≠ codeSentinel) {s : State}
    (ha : s.act = .active) (hfirst : s.prev = codeSentinel → ∀ c ∈ cs.head?, dict2 c = none) :
    expandAll cs s = .next ((s.setOut (Memory.appendStr s.out cs)).setPrev (cs.getLastD s.prev)) := by
  induction cs generalizing s with
  | nil => rfl
  | cons c cs ih =>
    obtain ⟨⟨hnone, hne⟩, hrest⟩ := List.forall_mem_cons.1 hcs
    have hlit : expand c s = .next ((s.setOut (Memory.append s.out c)).setPrev c) := by
      rw [expand_literal ha hnone fun hp => hfirst hp c rfl, execBLit_eq]
    rw [expandAll, hlit, andThen_next, List.getLastD_cons]
    exact ih hrest ha fun hp => absurd hp hne

/-! ### The sentinel before a pair (R114) -/

theorem RunInv.lookback_sentinel {s : State} (hs : RunInv s) (hp : s.prev = codeSentinel) :
    s.act = .active ∧ s.outBytes.getLast? = some codeSentinel :=
  hp ▸ hs.lookback (by rw [hp]; decide)

/-- OUT holds the phrase and, after it, the sentinel. -/
theorem trigLen_lt_olen_of_sentinel {s : State} (hs : RunInv s) (hp : s.prev = codeSentinel) :
    Config.trigLen < s.olen := by
  obtain ⟨ha, hlast⟩ := hs.lookback_sentinel hp
  have hlen := (trigger_infix_dropLast (hs.active ha) hlast).length_le
  rw [trigger_length, List.length_dropLast, ← State.olen_eq_length_outBytes] at hlen
  rw [Config.trigLen]
  omega

/-! ### The statements -/

/-- Settles O28: the thirteen strings are looked through, and both kinds of expansion clear PREV. -/
theorem expansionsAreNotReadAgain : Obligations.ExpansionsAreNotReadAgain := by
  refine ⟨fun c bs h => h.elim dict1_no_formStart dict2_no_formStart, fun s t c ha hc h => ?_⟩
  obtain hpfx | ⟨hp, hsec⟩ := hc
  · obtain ⟨bs, hbs⟩ := exists_dict1_of_mem hpfx
    rw [expand_prefix ha hbs] at h
    exact prefixExpansion_prev h
  · obtain ⟨bs, hbs⟩ := exists_dict2_of_mem hsec
    rw [expand_pair ha hp hbs] at h
    exact pairExpansion_prev h

/-- Settles O29: no code of the phrase begins a form, and its first one is no second code. -/
theorem secondTriggerPhraseIsLiteral : Obligations.SecondTriggerPhraseIsLiteral := by
  intro s ha
  have hcs : ∀ c ∈ trigger, dict1 c = none ∧ c ≠ codeSentinel := by decide
  have hfirst : ∀ c ∈ trigger.head?, dict2 c = none := by decide
  exact ⟨_, expandAll_literals hcs ha fun _ => hfirst, rfl⟩

/-- Settles O32: the three clauses are those of `Memory.StoresAt`. -/
theorem expanderStoresAtTheTail : Obligations.ExpanderStoresAtTheTail := by
  intro i s t hi hwf h
  obtain ⟨hstored, helsewhere, hsize⟩ := expander_storesAt hi hwf h
  exact ⟨hstored, helsewhere, hsize⟩

/-- Settles O43: the phrase ends in no sentinel, so OUT holds it and one byte more; the last byte is PREV. -/
theorem pairPopsTheSentinel : Obligations.PairPopsTheSentinel := by
  intro s hs hp
  obtain ⟨ha, hlast⟩ := hs.lookback_sentinel hp
  have hlen : 12 ≤ s.olen := trigLen_lt_olen_of_sentinel hs hp
  have hne : s.out ≠ [] := List.ne_nil_of_length_pos ((by decide : 0 < 12).trans_le hlen)
  refine ⟨hlast, hlen, fun c hc => ?_⟩
  obtain ⟨bs, hbs⟩ := exists_dict2_of_mem hc
  refine ⟨_, bs, (expand_pair ha hp hbs).trans (pairExpansion_of_ne_nil bs hne), ?_, hbs⟩
  simp [State.bytes_out]

/-- Settles O23: each row has the shape `prefixRule` with its code, its operation and its string. -/
theorem prefixExpansions : Obligations.PrefixExpansions :=
  ⟨prefixRule (op := .bPfxGt) rfl fun _ => rfl, prefixRule (op := .bPfxBar) rfl fun _ => rfl,
    prefixRule (op := .bPfxDlr) rfl fun _ => rfl, prefixRule (op := .bPfxAt) rfl fun _ => rfl⟩

/-- Settles O24: each row has the shape `pairRule` with its code, its operation and its string. -/
theorem pairExpansions : Obligations.PairExpansions :=
  ⟨pairRule (op := .bPairA) rfl rfl fun _ => rfl, pairRule (op := .bPairLowerA) rfl rfl fun _ => rfl,
    pairRule (op := .bPairB) rfl rfl fun _ => rfl, pairRule (op := .bPairC) rfl rfl fun _ => rfl,
    pairRule (op := .bPairF) rfl rfl fun _ => rfl, pairRule (op := .bPairI) rfl rfl fun _ => rfl,
    pairRule (op := .bPairP) rfl rfl fun _ => rfl, pairRule (op := .bPairS) rfl rfl fun _ => rfl,
    pairRule (op := .bPairU) rfl rfl fun _ => rfl⟩

/-- Settles O26: a code outside the two classes, or a second code without the sentinel before it, reaches the last test of
R56. -/
theorem literalIsAppendedAndRemembered : Obligations.LiteralIsAppendedAndRemembered := by
  refine ⟨fun prev c hpfx hsec => ?_, fun c s => ⟨_, execBLit_eq c s, rewrites_appendStr s [c] c⟩⟩
  have hsecond : prev = codeSentinel → decodeSecond c = none := fun hp =>
    decodeSecond_eq_none_of_not_mem (hsec.resolve_left (not_not_intro hp))
  exact congrArg TokenOp.toInstr (decodeToken_literal (decodePrefix_eq_none_of_not_mem hpfx) hsecond)

/-- Settles O27: the expansion of a trigger reads OUT but not PREV, and only appends. -/
theorem triggersIgnoreTheLookback : Obligations.TriggersIgnoreTheLookback := by
  intro s c ha hc
  obtain ⟨bs, hbs⟩ := exists_dict1_of_mem hc
  have hexp : ∀ prev, expand c { s with prev := prev } =
      .next ((s.setOut (Memory.appendStr s.out bs)).setPrev 0) := fun prev =>
    expand_prefix (s := { s with prev := prev }) ha hbs
  refine ⟨fun prev => (hexp prev).trans (hexp s.prev).symm, _, hexp s.prev, rfl, ?_⟩
  simp [State.bytes_out]

end Sys2Proof.Machine

/-! # The decoder: 43_decoder

The commands outside and inside their condition, what the expander cannot see, a packed byte as a run of the expander on
the codes it completes, the fold of the bytes consumed, the deferred form as a simulation, and the statements of
43_decoder assembled from them. -/

namespace Sys2Proof.Machine

/-! ### The host's commands (R132, R133, R135) -/

theorem cmdStep_of_read {s : State} {v : Byte} (hst : s.st = .run) (hread : Memory.read s.input s.ipos = some v) :
    cmdStep s = exec (decode (.packed s.bit) v) s.advance := by
  simp only [cmdStep, hst, hread]

theorem cmdStep_of_no_byte {s : State} (hst : s.st = .run) (hread : Memory.read s.input s.ipos = none) :
    cmdStep s = .refused .stepPastEnd := by
  simp only [cmdStep, hst, hread]

theorem cmdStep_of_not_run {s : State} (hst : s.st ≠ .run) : cmdStep s = .refused .stepNotRunning := by
  cases h : s.st with
  | run => exact absurd h hst
  | idle | done => simp only [cmdStep, h]

theorem cmdFinish_of_end {s : State} (hst : s.st = .run) (hn : s.ipos = s.n) : cmdFinish s = .next (s.setSt .done) := by
  simp only [cmdFinish, hst, if_pos hn]

theorem cmdFinish_of_not_end {s : State} (hst : s.st = .run) (hn : s.ipos ≠ s.n) :
    cmdFinish s = .refused .finishBeforeEnd := by
  simp only [cmdFinish, hst, if_neg hn]

theorem cmdFinish_of_not_run {s : State} (hst : s.st ≠ .run) : cmdFinish s = .refused .finishNotRunning := by
  cases h : s.st with
  | run => exact absurd h hst
  | idle | done => simp only [cmdFinish, h]

theorem cmdDrive_of_run {s : State} (c : Code) (hst : s.st = .run) :
    cmdDrive c s = exec (decode (.token s.act s.prev) c) s := by
  simp only [cmdDrive, hst]

/-- The byte at an address below N (20_memory R31). -/
theorem exists_read_of_lt {m : Memory} (h : Memory.wf m) {a : Nat} (ha : a < Memory.size m) :
    ∃ v, Memory.read m a = some v :=
  Option.isSome_iff_exists.1 ((Memory.read_isSome_iff h a).2 ha)

/-! ### What the expander cannot see (R134) -/

/-- `f` writes only what the expander neither reads nor writes: it leaves ACT, PREV and OUT and does not mind when they
are written (41_expander_dormant R90). -/
structure HiddenFromExpander (f : State → State) : Prop where
  act : ∀ s, (f s).act = s.act
  prev : ∀ s, (f s).prev = s.prev
  out : ∀ s, (f s).out = s.out
  setAct : ∀ s m, f (s.setAct m) = (f s).setAct m
  setPrev : ∀ s c, f (s.setPrev c) = (f s).setPrev c
  setOut : ∀ s m, f (s.setOut m) = (f s).setOut m

section
variable {f : State → State} (hf : HiddenFromExpander f)
include hf

theorem HiddenFromExpander.execAPass_comm (c : Code) (s : State) :
    execAPass c (f s) = andThen (execAPass c s) fun t => .next (f t) := by
  have hbytes : (f s).outBytes = s.outBytes := congrArg Memory.bytes (hf.out s)
  rw [execAPass_eq, execAPass_eq, andThen_next, hf.setAct, hf.setOut, hf.act, hf.out, hbytes]

theorem HiddenFromExpander.execBLit_comm (c : Code) (s : State) :
    execBLit c (f s) = andThen (execBLit c s) fun t => .next (f t) := by
  simp only [execBLit_eq, andThen_next, hf.setPrev, hf.setOut, hf.out]

theorem HiddenFromExpander.prefixExpansion_comm (bs : List Byte) (s : State) :
    prefixExpansion bs (f s) = andThen (prefixExpansion bs s) fun t => .next (f t) := by
  simp only [prefixExpansion_eq, andThen_next, hf.setPrev, hf.setOut, hf.out]

theorem HiddenFromExpander.pairExpansion_comm (bs : List Byte) (s : State) :
    pairExpansion bs (f s) = andThen (pairExpansion bs s) fun t => .next (f t) := by
  by_cases ho : s.out = []
  · rw [pairExpansion_of_nil bs ho, pairExpansion_of_nil bs ((hf.out s).trans ho), andThen_refused]
  · rw [pairExpansion_of_ne_nil bs ho, pairExpansion_of_ne_nil bs (hf.out s ▸ ho), andThen_next, hf.setPrev, hf.setOut,
      hf.out]

/-- A write the expander cannot see may be done before a code or after it. -/
theorem HiddenFromExpander.expand_comm (c : Code) (s : State) :
    expand c (f s) = andThen (expand c s) fun t => .next (f t) := by
  simp only [expand, hf.act, hf.prev]
  cases decodeToken s.act s.prev c with
  | aPass c' => exact hf.execAPass_comm c' s
  | bPfxGt | bPfxBar | bPfxDlr | bPfxAt => exact hf.prefixExpansion_comm _ s
  | bPairA | bPairLowerA | bPairB | bPairC | bPairF | bPairI | bPairP | bPairS | bPairU => exact hf.pairExpansion_comm _ s
  | bLit c' => exact hf.execBLit_comm c' s

theorem HiddenFromExpander.expandAll_comm (cs : List Code) (s : State) :
    expandAll cs (f s) = andThen (expandAll cs s) fun t => .next (f t) := by
  induction cs generalizing s with
  | nil => rfl
  | cons c cs ih => simp only [expandAll, hf.expand_comm, andThen_assoc, andThen_next, ih]

end

/-- `u` with PREV, ACT and OUT of `s`. -/
def State.withExpanderOf (u s : State) : State := { u with prev := s.prev, act := s.act, out := s.out }

theorem hiddenFromExpander_withExpanderOf (u : State) : HiddenFromExpander u.withExpanderOf :=
  ⟨fun _ => rfl, fun _ => rfl, fun _ => rfl, fun _ _ => rfl, fun _ _ => rfl, fun _ _ => rfl⟩

/-- Another buffer is hidden from the expander. -/
theorem hiddenFromExpander_input (m : Memory) : HiddenFromExpander fun s => { s with input := m } :=
  ⟨fun _ => rfl, fun _ => rfl, fun _ => rfl, fun _ _ => rfl, fun _ _ => rfl, fun _ _ => rfl⟩

/-- Two states with the same PREV, ACT and OUT have the same after any codes. -/
theorem expandAll_of_same_expander {cs : List Code} {s t u : State} (h : expandAll cs s = .next t)
    (hprev : u.prev = s.prev) (hact : u.act = s.act) (hout : u.out = s.out) :
    ∃ w, expandAll cs u = .next w ∧ w.prev = t.prev ∧ w.act = t.act ∧ w.out = t.out := by
  have hu : u = u.withExpanderOf s := by rw [State.withExpanderOf, ← hprev, ← hact, ← hout]
  have hrun := (hiddenFromExpander_withExpanderOf u).expandAll_comm cs s
  rw [← hu, h, andThen_next] at hrun
  exact ⟨u.withExpanderOf t, hrun, rfl, rfl, rfl⟩

/-- Beside the byte an unpacker operation does not see IN. -/
theorem exec_packed_input (v : Byte) (s : State) (m : Memory) :
    exec (decode (.packed s.bit) v) { s with input := m } =
      andThen (exec (decode (.packed s.bit) v) s) fun t => .next { t with input := m } := by
  have hexp := (hiddenFromExpander_input m).expand_comm
  have hother := unpackStepIsTheAlgorithm { s with input := m } v
  rw [hother, unpackStepIsTheAlgorithm s v, hexp]
  simp only [andThen_assoc, andThen_next]
  split
  · simp only [hexp, andThen_assoc, andThen_next]
  · rfl

/-! ### A packed byte as codes for the expander (R132, R134) -/

theorem unpackerAfter_append (low bit : Nat) (a b : List Byte) :
    unpackerAfter low bit (a ++ b) = unpackerAfter (unpackerAfter low bit a).1 (unpackerAfter low bit a).2 b := by
  induction a generalizing low bit with
  | nil => rfl
  | cons v vs ih =>
    rw [List.cons_append, unpackerAfter, unpackerAfter]
    split <;> exact ih _ _

/-- The first code of a byte on eight bits and on naturals. -/
theorem packedCode_eq_ofNat (v : Byte) (low : BitVec 7) {k : Nat} (hk : k < 7) (hlow : low.toNat < 2 ^ k) :
    ((v &&& ((0x7F : Byte) >>> k)) <<< k) ||| low.setWidth 8 =
      BitVec.ofNat 8 (((v.toNat &&& (0x7F >>> k)) <<< k) ||| low.toNat) := by
  rw [← toNat_packedCode v low hk hlow, BitVec.ofNat_toNat, BitVec.setWidth_eq]

/-- The carry-out in LOW and on naturals: seven bits lose nothing of it. -/
theorem toNat_carried (v : Byte) {k : Nat} (hk : k < 7) : ((v >>> (7 - k)).setWidth 7).toNat = v.toNat >>> (7 - k) := by
  have hfits : v.toNat >>> (7 - k) < 2 ^ 7 := (carryOut_lt v hk).trans_le (Nat.pow_le_pow_right (by decide) hk)
  rw [BitVec.toNat_setWidth, BitVec.toNat_ushiftRight, Nat.mod_eq_of_lt hfits]

/-- A packed byte runs the expander on the codes the unpacker on lists gives, and leaves in LOW and BIT what it leaves. -/
theorem exec_packed_eq_expandAll (v : Byte) {s : State} (hlow : s.low.toNat < 2 ^ s.bit.val) :
    ∃ low bit, (low.toNat, bit.val) = unpackerAfter s.low.toNat s.bit.val [v] ∧
      exec (decode (.packed s.bit) v) s =
        andThen (expandAll (unpackFrom s.low.toNat s.bit.val [v]) s) fun u => .next (u.setUnpacker low bit) := by
  have hcode := packedCode_eq_ofNat v s.low s.bit.isLt hlow
  rw [unpackStepIsTheAlgorithm s v, hcode]
  by_cases h6 : s.bit = 6
  · have hsecond : v >>> (7 - s.bit.val) = BitVec.ofNat 8 (v.toNat >>> (7 - s.bit.val)) := by
      rw [← BitVec.toNat_ushiftRight, BitVec.ofNat_toNat, BitVec.setWidth_eq]
    have h6' : s.bit.val = 6 := congrArg Fin.val h6
    refine ⟨0, 0, by simp [unpackerAfter, h6'], ?_⟩
    simp only [if_pos h6, hsecond, unpackFrom, if_pos h6', expandAll, andThen_assoc, andThen_next]
    rfl
  · have h6' : s.bit.val ≠ 6 := fun h => h6 (Fin.ext h)
    refine ⟨(v >>> (7 - s.bit.val)).setWidth 7, s.bit + 1, ?_, ?_⟩
    · rw [toNat_carried v s.bit.isLt, Fin.val_add_one_of_lt' (by omega), unpackerAfter, if_neg h6', unpackerAfter]
    · simp only [if_neg h6, unpackFrom, if_neg h6', expandAll, andThen_assoc, andThen_next]
      rfl

theorem expandAll_next_of_popSafe {s : State} (h : PopSafe s) (cs : List Code) : ∃ t, expandAll cs s = .next t := by
  induction cs generalizing s with
  | nil => exact ⟨s, rfl⟩
  | cons c cs ih =>
    obtain ⟨u, hu⟩ := expand_next_of_popSafe h c
    rw [expandAll, hu, andThen_next]
    exact ih fun _ => expand_out_ne_nil hu

/-- The byte of a STEP is always handled to completion (60_exceptions R150). -/
theorem exec_packed_next {s : State} (hpop : PopSafe s) (hlow : s.low.toNat < 2 ^ s.bit.val) (v : Byte) :
    ∃ t, exec (decode (.packed s.bit) v) s = .next t := by
  obtain ⟨low, bit, -, hexec⟩ := exec_packed_eq_expandAll v hlow
  obtain ⟨u, hu⟩ := expandAll_next_of_popSafe hpop (unpackFrom s.low.toNat s.bit.val [v])
  exact ⟨_, by rw [hexec, hu, andThen_next]⟩

theorem RunInv.popSafe {s : State} (hs : RunInv s) : PopSafe s := fun hp =>
  List.ne_nil_of_length_pos ((Nat.zero_le _).trans_lt (trigLen_lt_olen_of_sentinel hs hp))

/-! ### STEP and FINISH while running (R141) -/

theorem step_next_iff {s : State} (hs : RunInv s) (hst : s.st = .run) (rest : List Command) :
    (∃ t, step (s.setHost (.step :: rest)) = .next t) ↔ s.ipos < s.n := by
  have hstep : step (s.setHost (.step :: rest)) = cmdStep (s.setHost rest) := rfl
  rw [hstep]
  constructor
  · rintro ⟨t, h⟩
    obtain ⟨-, v, hread, -⟩ := cmdStep_eq_next h
    exact (Memory.read_isSome_iff hs.inputWf _).1 (Option.isSome_iff_exists.2 ⟨v, hread⟩)
  · intro hlt
    obtain ⟨v, hread⟩ := exists_read_of_lt hs.inputWf hlt
    rw [cmdStep_of_read (s := s.setHost rest) hst hread]
    exact exec_packed_next (s := (s.setHost rest).advance) hs.popSafe hs.lowBound v

theorem finish_next_iff {s : State} (hst : s.st = .run) (rest : List Command) :
    (∃ t, step (s.setHost (.finish :: rest)) = .next t) ↔ s.ipos = s.n := by
  have hstep : step (s.setHost (.finish :: rest)) = cmdFinish (s.setHost rest) := rfl
  rw [hstep]
  constructor
  · rintro ⟨t, h⟩
    obtain ⟨-, hn, -⟩ := cmdFinish_eq_next h
    exact hn
  · exact fun hn => ⟨_, cmdFinish_of_end (s := s.setHost rest) hst hn⟩

/-- What a STEP leaves and moves outside unpacker and expander (R132). -/
theorem step_frame {s t : State} {rest : List Command} (hh : s.host = .step :: rest) (h : step s = .next t) :
    t.st = .run ∧ t.ipos = s.ipos + 1 ∧ t.input = s.input ∧ t.host = rest := by
  rw [step_of_host_cons hh] at h
  obtain ⟨hst, v, -, he⟩ := cmdStep_eq_next h
  obtain ⟨hipos, hrun, hinput, hhost⟩ := exec_frame he
  exact ⟨hrun.trans hst, hipos, hinput, hhost⟩

/-! ### The fold of the bytes consumed (R134) -/

/-- The clauses of `FoldInv` that speak of the state alone and not of the coming commands. -/
structure IsFold (s : State) : Prop where
  unpacker : (s.low.toNat, s.bit.val) = unpackerAfter 0 0 ((Memory.bytes s.input).take s.ipos)
  expander : ∃ u, expandAll (unpack ((Memory.bytes s.input).take s.ipos)) State.started = .next u ∧
    u.prev = s.prev ∧ u.act = s.act ∧ u.out = s.out

theorem foldInv_iff (s : State) : FoldInv s ↔ Composed s ∧ IsFold s :=
  ⟨fun h => ⟨h.composed, h.unpacker, h.expander⟩, fun ⟨hc, h⟩ => ⟨hc, h.unpacker, h.expander⟩⟩

/-- At START no byte has been consumed (R131). -/
theorem isFold_start (buffer : List Byte) (rest : List Command) :
    IsFold ⟨0, 0, 0, .dormant, [], 0, .run, Memory.ofBytes buffer, rest⟩ where
  unpacker := rfl
  expander := ⟨State.started, rfl, rfl, rfl, rfl⟩

/-- The fold does not look at ST and the coming commands. -/
theorem IsFold.finish {s : State} (h : IsFold s) (rest : List Command) : IsFold ((s.setHost rest).setSt .done) :=
  ⟨h.unpacker, h.expander⟩

/-- A STEP takes one byte more into the fold. -/
theorem isFold_exec {s t : State} {rest : List Command} {v : Byte} (hs : RunInv s) (hfold : IsFold s)
    (hread : Memory.read s.input s.ipos = some v)
    (h : exec (decode (.packed s.bit) v) (s.setHost rest).advance = .next t) : IsFold t := by
  obtain ⟨hipos, -, hinput, -⟩ := exec_frame h
  have htaken : (Memory.bytes t.input).take t.ipos = (Memory.bytes s.input).take s.ipos ++ [v] := by
    rw [hinput, hipos]
    simp [List.take_add_one, ← Memory.read_eq_bytes hs.inputWf, hread]
  obtain ⟨low, bit, hafter, hexec⟩ := exec_packed_eq_expandAll v (s := (s.setHost rest).advance) hs.lowBound
  obtain ⟨w, hw, hnext⟩ := (andThen_eq_next_iff _ _ _).1 (hexec.symm.trans h)
  obtain rfl := Host.Outcome.next.inj hnext
  obtain ⟨hlow, hbit⟩ := Prod.ext_iff.1 hfold.unpacker
  obtain ⟨u, hu, hprev, hact, hout⟩ := hfold.expander
  refine ⟨?_, ?_⟩
  · rw [htaken, unpackerAfter_append, ← hlow, ← hbit]
    exact hafter
  · rw [htaken, unpack, unpackFrom_append, ← hlow, ← hbit, expandAll_append, ← unpack, hu, andThen_next]
    obtain ⟨u', hu', hsame⟩ := expandAll_of_same_expander hw hprev hact hout
    exact ⟨u', hu', hsame⟩

/-! ### A whole decode (R134, R141) -/

/-- From a running state the STEPs left and FINISH run through to DONE, and the fold is then over the whole buffer. -/
theorem reaches_done {k : Nat} {s : State} {rest : List Command} (hs : RunInv s) (hfold : IsFold s)
    (hst : s.st = .run) (hleft : s.ipos + k = s.n) (hh : s.host = List.replicate k .step ++ .finish :: rest) :
    ∃ t, Reaches (k + 1) s t ∧ IsFold t ∧ t.st = .done ∧ t.ipos = t.n ∧ t.input = s.input ∧ t.host = rest := by
  induction k generalizing s with
  | zero =>
    have hfinish : step s = .next ((s.setHost rest).setSt .done) := by
      rw [step_of_host_cons hh]
      exact cmdFinish_of_end (s := s.setHost rest) hst hleft
    exact ⟨_, ⟨_, hfinish, rfl⟩, hfold.finish rest, rfl, hleft, rfl, rfl⟩
  | succ k ih =>
    have hcons : s.host = .step :: (List.replicate k .step ++ .finish :: rest) := hh
    have hself : s.setHost (.step :: (List.replicate k .step ++ .finish :: rest)) = s := by rw [← hcons]; rfl
    obtain ⟨u, hu⟩ := (step_next_iff hs hst (List.replicate k .step ++ .finish :: rest)).2 (by omega)
    rw [hself] at hu
    obtain ⟨hurun, huipos, huinput, huhost⟩ := step_frame hcons hu
    have hun : u.n = s.n := congrArg Memory.size huinput
    have hustep := step_of_host_cons hcons ▸ hu
    obtain ⟨-, v, hread, he⟩ := cmdStep_eq_next hustep
    obtain ⟨t, ht, htfold, htdone, htn, htinput, hthost⟩ :=
      ih (everyStepKeepsTheInvariant s u hs hu) (isFold_exec hs hfold hread he) hurun (by omega) huhost
    exact ⟨t, ⟨u, hu, ht⟩, htfold, htdone, htn, htinput.trans huinput, hthost⟩

/-! ### The deferred form (R138 to R140) -/

theorem Deferred.bytes_commit (d : Deferred) : Memory.bytes d.commit.out = Memory.bytes d.out ++ d.hold.toList := by
  cases h : d.hold <;> simp [Deferred.commit, h]

theorem Deferred.commit_act (d : Deferred) : d.commit.act = d.act := by
  cases h : d.hold <;> simp [Deferred.commit, h]

theorem Deferred.commit_hold (d : Deferred) : d.commit.hold = none := by
  cases h : d.hold <;> simp [Deferred.commit, h]

theorem Deferred.expand_dormant {d : Deferred} (h : d.act = .dormant) (c : Code) :
    d.expand c = { d with
      out := Memory.append d.out c, act := if trigger <:+ Memory.bytes d.out ++ [c] then .active else .dormant } := by
  simp only [Deferred.expand, h, latchAfter_eq, Memory.bytes_append]

theorem Deferred.expand_trigger {d : Deferred} (h : d.act = .active) {c : Code} {bs : List Byte}
    (hd : dict1 c = some bs) : d.expand c = d.commit.write bs := by
  simp only [Deferred.expand, h, hd]

theorem Deferred.expand_pair {d : Deferred} (h : d.act = .active) {c : Code} {bs : List Byte} (h₁ : dict1 c = none)
    (hhold : d.hold = some codeSentinel) (h₂ : dict2 c = some bs) :
    d.expand c = Deferred.write bs { d with hold := none } := by
  simp only [Deferred.expand, h, h₁, if_pos hhold, h₂]

theorem Deferred.expand_literal {d : Deferred} (h : d.act = .active) {c : Code} (h₁ : dict1 c = none)
    (h₂ : d.hold = some codeSentinel → dict2 c = none) : d.expand c = { d.commit with hold := some c } := by
  have hno : (if d.hold = some codeSentinel then dict2 c else none) = none := by
    split
    case isTrue hhold => exact h₂ hhold
    case isFalse => rfl
  simp only [Deferred.expand, h, h₁, hno]

/-- The deferred form `d` stands for the state `s` (R140): HOLD is the last literal, which OUT has and OUT' has not, and
PREV is it, or 0 where there is none. -/
structure Deferred.StandsFor (d : Deferred) (s : State) : Prop where
  act : d.act = s.act
  out : s.outBytes = Memory.bytes d.out ++ d.hold.toList
  prev : s.prev = d.hold.getD 0
  dormant : d.act = .dormant → d.hold = none

theorem Deferred.standsFor_reset : Deferred.reset.StandsFor State.started := ⟨rfl, rfl, rfl, fun _ => rfl⟩

theorem Deferred.StandsFor.hold_eq_sentinel_iff {d : Deferred} {s : State} (h : d.StandsFor s) :
    d.hold = some codeSentinel ↔ s.prev = codeSentinel := by
  rw [h.prev]
  cases d.hold with
  | none => decide
  | some c => simp

/-- Where PREV is the sentinel it is in HOLD, so OUT has it. -/
theorem Deferred.StandsFor.popSafe {d : Deferred} {s : State} (h : d.StandsFor s) : PopSafe s := by
  intro hp hnil
  have hout := h.out
  rw [h.hold_eq_sentinel_iff.2 hp, State.outBytes, hnil] at hout
  simp at hout

/-- One code keeps the two together. -/
theorem Deferred.StandsFor.after_code {d : Deferred} {s : State} (h : d.StandsFor s) (c : Code) :
    ∃ t, Machine.expand c s = .next t ∧ (d.expand c).StandsFor t := by
  obtain ⟨t, ht⟩ := expand_next_of_popSafe h.popSafe c
  refine ⟨t, ht, ?_⟩
  obtain ⟨hd, rfl⟩ | ⟨ha, bs, hd, rfl⟩ | ⟨ha, hd₁, hp, -, bs, hd, rfl⟩ | ⟨ha, hd₁, hd₂, rfl⟩ := expand_cases ht
  · have hdd : d.act = .dormant := h.act.trans hd
    have hhold := h.dormant hdd
    have hbytes : s.outBytes = Memory.bytes d.out := by simpa [hhold] using h.out
    rw [Deferred.expand_dormant hdd]
    exact ⟨by simp [hbytes, hd], by simp [hhold, State.bytes_out, hbytes], h.prev, fun _ => hhold⟩
  · have hda : d.act = .active := h.act.trans ha
    rw [Deferred.expand_trigger hda hd]
    exact ⟨by simp [Deferred.write, Deferred.commit_act, h.act],
      by simp [Deferred.write, Deferred.commit_hold, Deferred.bytes_commit, State.bytes_out, h.out],
      by simp [Deferred.write, Deferred.commit_hold], fun _ => d.commit_hold⟩
  · have hda : d.act = .active := h.act.trans ha
    have hhold := h.hold_eq_sentinel_iff.2 hp
    rw [Deferred.expand_pair hda hd₁ hhold hd]
    exact ⟨h.act, by simp [Deferred.write, State.bytes_out, h.out, hhold], rfl, fun _ => rfl⟩
  · have hda : d.act = .active := h.act.trans ha
    rw [Deferred.expand_literal hda hd₁ fun hhold => hd₂ (h.hold_eq_sentinel_iff.1 hhold)]
    exact ⟨d.commit_act.trans h.act, by simp [Deferred.bytes_commit, State.bytes_out, h.out], rfl,
      fun hdormant => by simp [d.commit_act, hda] at hdormant⟩

theorem Deferred.StandsFor.after_codes {d : Deferred} {s : State} (h : d.StandsFor s) (cs : List Code) :
    ∃ t, Machine.expandAll cs s = .next t ∧ (cs.foldl (fun d c => Deferred.expand c d) d).StandsFor t := by
  induction cs generalizing d s with
  | nil => exact ⟨s, rfl, h⟩
  | cons c cs ih =>
    obtain ⟨u, hu, hstands⟩ := h.after_code c
    rw [Machine.expandAll, hu, andThen_next]
    exact ih hstands

/-! ### The statements -/

/-- Settles O42: by the five things a step can do; no code is driven, and a STEP takes its byte into the fold. -/
theorem everyStepKeepsTheFold : Obligations.EveryStepKeepsTheFold := by
  intro s t hs hfold h
  obtain ⟨hcomposed, hisFold⟩ := (foldInv_iff s).1 hfold
  refine (foldInv_iff t).2 ?_
  have hrest : ∀ {cmd rest}, s.host = cmd :: rest → ∀ c, Command.drive c ∉ rest := fun hh c hc =>
    hcomposed c (hh ▸ List.mem_cons_of_mem _ hc)
  obtain ⟨-, rfl⟩ | ⟨buffer, rest, hh, rfl⟩ | ⟨rest, v, hh, -, hread, he⟩ | ⟨rest, hh, -, -, rfl⟩ |
    ⟨c, rest, hh, -, -⟩ := step_cases h
  · exact ⟨hcomposed, hisFold⟩
  · exact ⟨hh.elim hrest hrest, isFold_start buffer rest⟩
  · obtain ⟨-, -, -, hhost⟩ := exec_frame he
    exact ⟨fun c => hhost ▸ hrest hh c, isFold_exec hs hisFold hread he⟩
  · exact ⟨hrest hh, hisFold.finish rest⟩
  · exact absurd (hh ▸ List.mem_cons_self) (hcomposed c)

/-- Settles O36: the six fields are hidden from the expander. -/
theorem expanderDoesNotSeeTheUnpacker : Obligations.ExpanderDoesNotSeeTheUnpacker := by
  intro c s low bit ipos st input host
  exact (hiddenFromExpander_withExpanderOf ⟨low, bit, 0, .dormant, [], ipos, st, input, host⟩).expand_comm c s

/-- Settles O37: the byte is read, and from there on nothing sees IN. -/
theorem stepDependsOnTheByteAtIposOnly : Obligations.StepDependsOnTheByteAtIposOnly := by
  intro s other rest v hh hread hother
  rw [step_of_host_cons hh, step_of_host_cons (s := { s with input := other }) hh]
  by_cases hst : s.st = .run
  · rw [runCommand, runCommand, cmdStep_of_read (s := State.setHost { s with input := other } rest) hst hother,
      cmdStep_of_read (s := s.setHost rest) hst hread]
    exact exec_packed_input v (s.setHost rest).advance other
  · rw [runCommand, runCommand, cmdStep_of_not_run (s := State.setHost { s with input := other } rest) hst,
      cmdStep_of_not_run (s := s.setHost rest) hst, andThen_refused]

/-- Settles O39: by the relation `Memory.Lengthens` that every operation keeps on OUT. -/
theorem outIsProvisionalInItsLastByteOnly : Obligations.OutIsProvisionalInItsLastByteOnly := by
  refine ⟨fun s => ?_, fun s t hwf h hstart a ha => ?_⟩
  · cases hst : s.st <;> simp [observe, hst]
  · obtain ⟨-, rfl⟩ | ⟨buffer, rest, hh | hh, -⟩ | ⟨rest, v, -, -, -, he⟩ | ⟨rest, -, -, -, rfl⟩ |
      ⟨c, rest, -, -, he⟩ := step_cases h
    · rfl
    · simp [startNext, hh] at hstart
    · simp [startNext, hh] at hstart
    · exact (exec_lengthens he).read_eq hwf ha
    · rfl
    · exact (expand_lengthens he).read_eq hwf ha

/-- Settles O45: by what STEP and FINISH need to answer; the invariant has IPOS at most N. -/
theorem exactlyOneCommandIsEnabledWhileRunning : Obligations.ExactlyOneCommandIsEnabledWhileRunning := by
  intro s hs hst
  refine ⟨step_next_iff hs hst [], finish_next_iff hst [], hs.iposLe.lt_or_eq, fun t h => ?_⟩
  obtain ⟨hrun, hipos, hinput, -⟩ := step_frame (s := s.setHost [.step]) rfl h
  exact ⟨hrun, hipos, hinput⟩

/-- Settles O2: both forms are the one command START. -/
theorem startBeginsADecode : Obligations.StartBeginsADecode := by
  intro s buffer rest hh
  refine ⟨?_, Memory.bytes_ofBytes buffer, Memory.wf_ofBytes buffer⟩
  obtain hh | hh := hh
  · exact step_of_host_cons hh
  · exact step_of_host_cons hh

/-- Settles O46: START begins with the empty fold, and at DONE the fold is over the whole buffer. -/
theorem wholeDecodeIsExpandOfUnpack : Obligations.WholeDecodeIsExpandOfUnpack := by
  intro s buffer rest hh
  have hcommands : s.host = .start buffer :: (List.replicate buffer.length .step ++ .finish :: rest) := by
    simp [hh, decodeScript]
  obtain ⟨hstart, -⟩ := startBeginsADecode s buffer _ (.inl hcommands)
  obtain ⟨t, hreach, hfold, hdone, hn, hinput, hhost⟩ :=
    reaches_done (k := buffer.length) (runInv_start buffer _) (isFold_start buffer _) rfl (by simp [State.n]) rfl
  have hlength : t.ipos = buffer.length := by rw [hn, State.n, hinput]; simp
  have htaken : (Memory.bytes t.input).take t.ipos = buffer := by simp [hinput, hlength]
  obtain ⟨hunpacker, u, hu, hprev, hact, hout⟩ := hfold
  rw [htaken] at hunpacker hu
  have hbytes : t.outBytes = u.outBytes := congrArg Memory.bytes hout.symm
  exact ⟨t, u, ⟨_, hstart, hreach⟩, hu, hdone, hbytes, hprev.symm, hact.symm, hunpacker, hlength, hhost,
    by simp [observe, hdone, hbytes]⟩

/-- Settles O50: by `Deferred.StandsFor`, from reset on; the code 0 is a literal that PREV cannot tell from none. -/
theorem deferredFormIsEquivalent : Obligations.DeferredFormIsEquivalent := by
  refine ⟨fun cs => ?_, trigger ++ [0], _, rfl, rfl, rfl⟩
  obtain ⟨t, ht, h⟩ := Deferred.standsFor_reset.after_codes cs
  refine ⟨t, ht, ?_⟩
  rintro d rfl
  exact ⟨h.act, fun hhold => ⟨by simpa [hhold] using h.out, by simpa [hhold] using h.prev⟩,
    fun c hhold => ⟨by simpa [hhold] using h.out, by simpa [hhold] using h.prev⟩,
    (Deferred.bytes_commit _).trans h.out.symm⟩

/-- Settles O3: a STEP reads its byte, a driven code is decoded as it is, and without a command nothing happens. -/
theorem stepRunsTheDecodedInstruction : Obligations.StepRunsTheDecodedInstruction := by
  refine ⟨fun s rest hh hst hwf hlt => ?_, fun s c rest hh hst => ?_, fun s hh => ?_⟩
  · obtain ⟨v, hread⟩ := exists_read_of_lt hwf hlt
    refine ⟨v, (Memory.read_eq_bytes hwf _).symm.trans hread, ?_⟩
    exact (step_of_host_cons hh).trans (cmdStep_of_read (s := s.setHost rest) hst hread)
  · exact (step_of_host_cons hh).trans (cmdDrive_of_run (s := s.setHost rest) c hst)
  · simp only [step, hh]

/-- Settles O4: FINISH writes ST alone; after START with no bytes IPOS = N = 0; the deferred FINISH is the commit. -/
theorem finishEndsTheDecode : Obligations.FinishEndsTheDecode := by
  refine ⟨fun s rest hh hst hn => ⟨?_, rfl⟩, fun s rest hh => ?_, fun d h hhold => ?_, fun d hhold => ?_⟩
  · exact (step_of_host_cons hh).trans (cmdFinish_of_end (s := s.setHost rest) hst hn)
  · exact ⟨_, _, step_of_host_cons hh, rfl, rfl, rfl, rfl⟩
  · exact ⟨by simp [Deferred.finish, Deferred.bytes_commit, hhold], d.commit_hold⟩
  · simp only [Deferred.finish, Deferred.commit, hhold]

/-- Settles O5: the four refusals, by ST and by IPOS against N. -/
theorem commandsOutsideTheirConditionAreRefused : Obligations.CommandsOutsideTheirConditionAreRefused := by
  refine ⟨fun s rest hh hst => ?_, fun s rest hh hst hwf hn => ?_, fun s rest hh hst hlt => ?_, fun s rest hh hst => ?_⟩
  · exact (step_of_host_cons hh).trans (cmdStep_of_not_run (s := s.setHost rest) hst)
  · have hread : Memory.read s.input s.ipos = none := by
      rw [Memory.read_eq_bytes hwf, hn]
      exact List.getElem?_eq_none (Memory.length_bytes _).le
    exact (step_of_host_cons hh).trans (cmdStep_of_no_byte (s := s.setHost rest) hst hread)
  · exact (step_of_host_cons hh).trans (cmdFinish_of_not_end (s := s.setHost rest) hst hlt.ne)
  · exact (step_of_host_cons hh).trans (cmdFinish_of_not_run (s := s.setHost rest) hst)

end Sys2Proof.Machine
